-- ==== Sys2Proof/Word.lean ====
section
/-! DEFINITION. The unit of data of the block: the unsigned byte (spec 00_scope.md R11, 20_memory.md R43).
Offsets, counts and lengths are plain `Nat` and never wrap (R11, R92); only the checksum is reduced modulo 256. -/

namespace Sys2Proof

/-- A byte, an unsigned 8-bit value (R11). -/
abbrev Byte := BitVec 8

/-- The IEEE-754 single-precision pattern that ENC_SETF cuts into bytes, bit 31 the sign (R25 `fbits`). -/
abbrev FloatBits := BitVec 32

/-- The operation-select code of a request, 4 bits (R25, R72). -/
abbrev OpCode := BitVec 4

end Sys2Proof
end

