-- ==== Sys2Proof/Config.lean ====
section
/-! DEFINITION. The constants of the block (spec 00_scope.md R2, R6; 10_state.md R29), the parameters that are
fixed when the block is built (R6: MIN_AVAIL, BUF_CAP), and the values that the spec leaves open and that only the
caller's pseudo-operations read (R74: BAUD_TYPE_ID, toBinary32, the enable and disable bytes), each a constant
without a body. -/

namespace Sys2Proof.Config

/-- HDR_INPUT: header of a device-to-host frame (R2, R29, R61). -/
def hdrInput : Byte := 0xF0

/-- HDR_OUTPUT: header of a host-to-device frame (R2, R29, R61). -/
def hdrOutput : Byte := 0xF1

/-- CMD_GET (R2, R29, R62). -/
def cmdGet : Byte := 0xA1

/-- CMD_BAUD (R2, R29, R62). No operation of the block has it built in (R107). -/
def cmdBaud : Byte := 0xB0

/-- CMD_SET (R2, R29, R62). -/
def cmdSet : Byte := 0xB1

/-- CMD_SESSION (R2, R29, R62). -/
def cmdSession : Byte := 0xC1

/-- FRAME_OVERHEAD: the bytes of a frame that are not payload (R6, R29). -/
def frameOverhead : Nat := 5

/-- MAX_PAYLOAD: the largest payload a frame can declare (R6, R29). -/
def maxPayload : Nat := 255

/-- The longest frame, and so the least capacity a finite receive buffer may have (R6, R67). -/
def longestFrame : Nat := 260

/-- The two legal settings of MIN_AVAIL, the bytes that must remain from an offset before the scanner examines it
(R6, R121; 90_conflicts.md C1; 92_eei_decisions.md D1). No other value can be written down. -/
inductive MinAvail
  /-- The value the spec takes. -/
  | five
  /-- DOC's literal, the other legal setting. -/
  | six
  deriving DecidableEq, Repr

/-- The number of bytes a setting of MIN_AVAIL asks for. -/
def MinAvail.toNat : MinAvail → Nat
  | .five => 5
  | .six => 6

/-- What is fixed when the block is built (R6). The spec asks a model to take these as arguments (D1, D3); the
model carries them in `Machine.State.params`, which no operation writes. -/
structure Params where
  /-- MIN_AVAIL (R6, D1); the spec takes 5. -/
  minAvail : MinAvail := .five
  /-- BUF_CAP (R6, D3): `none` is the unbounded default, `some c` a capacity of `c` bytes. -/
  bufCap : Option Nat := none
  deriving DecidableEq, Repr

/-- A finite BUF_CAP must hold one longest frame (R6: "a finite value must be at least 260"). -/
def Params.legal (p : Params) : Bool :=
  match p.bufCap with
  | none => true
  | some c => decide (longestFrame ≤ c)

/-- BAUD_TYPE_ID: the type_id of the baud-select frame, which the source does not give (R6, D12; N8). Free value:
no body, so no proof can see it. Only the pseudo-operation `pseudoBaudSelect` reads it. -/
opaque baudTypeId : Byte

/-- The byte that `enableOutput()` writes to register 219, not in the source (R74, N10). Free value. -/
opaque enableOutputByte : Int

/-- The byte that `disableOutput()` writes to register 219, not in the source (R74, N10). Free value. -/
opaque disableOutputByte : Int

/-- The byte that `startMetering()` writes to register 216, not in the source (R74, N10). Free value. -/
opaque startMeteringByte : Int

/-- The byte that `stopMetering()` writes to register 216, not in the source (R74, N10). Free value. -/
opaque stopMeteringByte : Int

/-- toBinary32: the caller's conversion from its own number type to a single-precision pattern, assumed only to be
a function of its argument (R6, R102, D7; U3). Free value, for any number type the caller may have. -/
opaque toBinary32 {number : Type} : number → FloatBits

end Sys2Proof.Config
end

