-- ==== Sys2Proof/Syntax.lean ====
section
/-! DEFINITION. The operations of the block (spec 30_encoding.md R72, opcode_table.json), one constructor per row,
and the request record that carries one of them to the block (10_state.md R25, R26). -/

namespace Sys2Proof

/-- The operations, with the operands R25 and R26 give each. -/
inductive Instr
  /-- op 0, ENC_FRAME(header, command, type_id, payload) (R100). -/
  | encFrame (header command typeId : Byte) (payload : List Byte)
  /-- op 1, ENC_GET(type_id) (R101). -/
  | encGet (typeId : Byte)
  /-- op 2, ENC_SETF(type_id, fbits) (R102). -/
  | encSetf (typeId : Byte) (fbits : FloatBits)
  /-- op 3, ENC_SETB(type_id, bval); `bval` is an unbounded integer (R103, R6 W_BVAL, D6). -/
  | encSetb (typeId : Byte) (bval : Int)
  /-- op 4, ENC_SESSION(open) (R104). -/
  | encSession (opening : Bool)
  /-- op 5, CKSUM(type_id, payload) (R90). -/
  | cksum (typeId : Byte) (payload : List Byte)
  /-- op 8, RX_APPEND(data) (R129). -/
  | rxAppend (data : List Byte)
  /-- op 9, RX_SCAN() (R130). -/
  | rxScan
  /-- op 10, RX_DRAIN() (R131). -/
  | rxDrain
  /-- op 15, RESET() (R170). -/
  | reset
  /-- A request with one of the reserved codes 6, 7, 11 to 14 (R72, R158). -/
  | reservedOp (op : OpCode)
  deriving DecidableEq, Repr

/-- The request record (R25 for TX, R26 for RX): the fields and widths of those tables. `payload` holds
`payload[0..plen)`. A field that an operation does not use is ignored (R25), so every field has a default. -/
structure Request where
  /-- Operation select (R72). -/
  op : OpCode
  /-- ENC_FRAME. -/
  header : Byte := 0
  /-- ENC_FRAME. -/
  command : Byte := 0
  /-- ENC_FRAME, ENC_GET, ENC_SETF, ENC_SETB, CKSUM. -/
  typeId : Byte := 0
  /-- ENC_FRAME, CKSUM: the number of payload bytes. -/
  plen : Byte := 0
  /-- ENC_FRAME, CKSUM: the payload bytes in wire order. -/
  payload : List Byte := []
  /-- ENC_SETF. -/
  fbits : FloatBits := 0
  /-- ENC_SETB. -/
  bval : Int := 0
  /-- ENC_SESSION: true to open, false to close. -/
  opening : Bool := false
  /-- RX_APPEND: a byte sequence of any length. -/
  data : List Byte := []
  deriving DecidableEq, Repr

/-- Why a request record stands for no operation at all. -/
inductive DecodeError
  /-- The record declares `plen` payload bytes and carries fewer, so `payload[0..plen)` does not exist (R25). -/
  | payloadShort (plen carried : Nat)
  deriving DecidableEq, Repr

end Sys2Proof
end

