-- ==== Sys2Proof/WellFormed.lean ====
section
/-! DEFINITION. Which terms of `Instr` the hardware fields of R25 and R26 can carry. `Instr` is wider than they are in
two places only: a payload of more than 255 bytes, and a `reservedOp` that names an assigned code. -/

namespace Sys2Proof

/-- A payload the 8-bit `plen` can count (R25, R90, R100). -/
def payloadFits (payload : List Byte) : Bool := decide (payload.length ≤ Config.maxPayload)

/-- The six codes that R72 leaves unassigned. -/
def isReservedOp (op : OpCode) : Bool :=
  op == 6#4 || op == 7#4 || op == 11#4 || op == 12#4 || op == 13#4 || op == 14#4

/-- The operands fit the request record (R25, R26, R72). -/
def Instr.wellFormed : Instr → Bool
  | .encFrame _ _ _ payload => payloadFits payload
  | .encGet _ => true
  | .encSetf _ _ => true
  | .encSetb _ _ => true
  | .encSession _ => true
  | .cksum _ payload => payloadFits payload
  | .rxAppend _ => true
  | .rxScan => true
  | .rxDrain => true
  | .reset => true
  | .reservedOp op => isReservedOp op

end Sys2Proof
end

