-- ==== Sys2Proof/Decode.lean ====
section
/-! DEFINITION. From a request record to an operation and back (spec 30_encoding.md R72; 10_state.md R25, R26).
`decode` is total: every record is an operation (a reserved code is `reservedOp`) or is rejected by name. `encode`
writes an operation's record from the same tables. -/

namespace Sys2Proof

/-- `payload[0..plen)` of a record (R25); bytes beyond `plen` are no part of the payload. -/
def takePayload (r : Request) : Except DecodeError (List Byte) :=
  if r.plen.toNat ≤ r.payload.length then .ok (r.payload.take r.plen.toNat)
  else .error (.payloadShort r.plen.toNat r.payload.length)

/-- The operation a request record asks for: the code of R72 selects it, the fields R25 and R26 list for it are its
operands, every other field is ignored. -/
def decode (r : Request) : Except DecodeError Instr :=
  match r.op.toNat with
  | 0 => (takePayload r).map (Instr.encFrame r.header r.command r.typeId)
  | 1 => .ok (.encGet r.typeId)
  | 2 => .ok (.encSetf r.typeId r.fbits)
  | 3 => .ok (.encSetb r.typeId r.bval)
  | 4 => .ok (.encSession r.opening)
  | 5 => (takePayload r).map (Instr.cksum r.typeId)
  | 8 => .ok (.rxAppend r.data)
  | 9 => .ok .rxScan
  | 10 => .ok .rxDrain
  | 15 => .ok .reset
  | _ => .ok (.reservedOp r.op)

/-- The operation-select code of an operation (R72). -/
def opCode : Instr → OpCode
  | .encFrame _ _ _ _ => 0#4
  | .encGet _ => 1#4
  | .encSetf _ _ => 2#4
  | .encSetb _ _ => 3#4
  | .encSession _ => 4#4
  | .cksum _ _ => 5#4
  | .rxAppend _ => 8#4
  | .rxScan => 9#4
  | .rxDrain => 10#4
  | .reset => 15#4
  | .reservedOp op => op

/-- The request record of an operation (R25, R26, R72); the fields it does not use are 0 or empty. -/
def encode (i : Instr) : Request :=
  match i with
  | .encFrame h k t p =>
    { op := opCode i, header := h, command := k, typeId := t, plen := BitVec.ofNat 8 p.length, payload := p }
  | .encGet t => { op := opCode i, typeId := t }
  | .encSetf t f => { op := opCode i, typeId := t, fbits := f }
  | .encSetb t v => { op := opCode i, typeId := t, bval := v }
  | .encSession o => { op := opCode i, opening := o }
  | .cksum t p => { op := opCode i, typeId := t, plen := BitVec.ofNat 8 p.length, payload := p }
  | .rxAppend d => { op := opCode i, data := d }
  | .rxScan => { op := opCode i }
  | .rxDrain => { op := opCode i }
  | .reset => { op := opCode i }
  | .reservedOp _ => { op := opCode i }

/-- A table word as a request record. The table gives a request one field, `op` in bits 3 to 0 (its mask is 0xF on
every row); the word's other bits are given no field, and the operand fields are zeros (assumption 8). -/
def Request.ofTableWord (nbits w : Nat) : Request := { op := BitVec.ofNat 4 (w % 2 ^ nbits) }

/-- What the decoder reads from an opcode-table word (the host's view of `decode`). -/
def decodeTableWord (nbits w : Nat) : Option Instr := (decode (Request.ofTableWord nbits w)).toOption

end Sys2Proof
end

