-- ==== Sys2Proof/Machine/State.lean ====
section
/-! DEFINITION. The state of the block. The spec gives it one piece of state, RXBUF (10_state.md R20, R33). The other
three fields are the model's own (INVENTORY.md, assumptions 1 to 3): the requests not yet served, the response record
of the operation just served, and the build's parameters. The types of results stand here too. -/

namespace Sys2Proof.Machine

/-- The Frame value (R27): two frames are equal when these four are equal. The length is the payload's length and
the checksum is implied. `header` and `command` are bytes, not enumerations: the scanner returns any command
(R123), and ENC_FRAME takes any of either (R100). -/
structure Frame where
  header : Byte
  command : Byte
  typeId : Byte
  payload : List Byte
  deriving DecidableEq, Repr

/-- The status of a scan (R28). -/
inductive Status
  /-- Fewer than MIN_AVAIL bytes from the offset (step S1). -/
  | exhausted
  /-- A valid frame was found (step S5). -/
  | frame
  /-- A candidate's declared end is past the end of the buffer (step S4). -/
  | needMore
  deriving DecidableEq, Repr

/-- What a scan returns (R120, R26): a frame and the count of leading bytes to drop, or one of the two kinds of
"no frame found". -/
inductive ScanResult
  | exhausted
  | needMore
  | frame (f : Frame) (consumed : Nat)
  deriving DecidableEq, Repr

/-- The response record of an operation (R25, R26). -/
inductive Response
  /-- No result: RX_APPEND and RESET return nothing (R129, R170), and no operation has run yet. -/
  | none
  /-- `out` of a TX encode operation (R25). -/
  | bytes (out : List Byte)
  /-- `ck` of CKSUM (R25). -/
  | checksum (ck : Byte)
  /-- The response of RX_SCAN (R26). -/
  | scan (r : ScanResult)
  /-- The response of RX_DRAIN (R131): the frames in the order found, each with its `consumed`, and the status of
  the last scan. -/
  | drain (frames : List (Frame × Nat)) (status : Status)
  deriving DecidableEq, Repr

/-- The block's memory: a finite byte sequence addressed by offset from the front (R20, R40). A list of bytes is its
own canonical form: equal sequences are equal data. -/
abbrev Memory := List Byte

/-- The state. -/
structure State where
  /-- RXBUF, the receive buffer, front first (R20): the only state the spec gives the block (R33). -/
  rxbuf : Memory
  /-- The model's own: the requests handed to the block and not yet served, oldest first. Operations are executed
  one at a time in the order issued (R50), so one list holds what the writer and the reader ask. -/
  requests : List Request
  /-- The model's own: the response record of the last operation (R25, R26), there for the reader of a run. No
  operation reads it. -/
  response : Response
  /-- The model's own: the parameters fixed when the block is built (R6). No operation writes them. -/
  params : Config.Params
  deriving DecidableEq, Repr

/-- Why the machine stops with a fault: no constructor, because the block raises nothing ("The codec raises nothing",
R150; "The scanner raises nothing", R151) and every operation returns normally (R156). -/
inductive Fault : Type
  deriving DecidableEq, Repr

/-- The inputs the spec refuses (R158), with the state left as it was. Each is safe: no claim can rest on what
happens after it. -/
inductive Refusal
  /-- Raised by an arm of `exec` that has no meaning yet. Safe. No arm of this model raises it. -/
  | notModelled (mnemonic : String)
  /-- Raised by ENC_FRAME and CKSUM on a payload of more than 255 bytes (R158 first row). Safe. -/
  | payloadTooLong (length : Nat)
  /-- Raised by RX_APPEND when the buffer would pass a finite BUF_CAP (R129, R158 second row). Safe. -/
  | bufferFull (length cap : Nat)
  /-- Raised by a request with a reserved operation code (R72, R158 fourth row). Safe. -/
  | reservedOp (op : OpCode)
  /-- Raised by `step` on a request record that stands for no operation (`decode` names why). Safe: the hardware's
  record always carries the `plen` bytes it declares (R25), so no hardware request is lost (assumption 8). -/
  | malformedRequest (why : DecodeError)
  deriving DecidableEq, Repr

/-- The machine right after reset (R32, R171): RXBUF empty, which is all the spec gives. The model's own fields: no
request waiting, no response yet (assumption 6), and the parameters at the spec's values, MIN_AVAIL 5 and BUF_CAP
unbounded (R6; assumptions 4 and 5). -/
def State.reset : State where
  rxbuf := []
  requests := []
  response := .none
  params := { minAvail := .five, bufCap := none }

end Sys2Proof.Machine
end

