-- ==== Sys2Proof/Machine/Flags.lean ====
section
/-! DEFINITION. The status of a scan, the block's only flag (spec 10_state.md R28), and the fields of the RX_SCAN
response record (R26) computed from a scan result. -/

namespace Sys2Proof.Machine

/-- The 2-bit code of a status (R28, D9). Code 3 is not produced. -/
def Status.code : Status → BitVec 2
  | .exhausted => 0
  | .frame => 1
  | .needMore => 2

/-- The `status` field (R28). -/
def ScanResult.status : ScanResult → Status
  | .exhausted => .exhausted
  | .needMore => .needMore
  | .frame _ _ => .frame

/-- The `consumed` field: the bytes removed from the front, 0 unless the status is FRAME (R26, R28, D2). -/
def ScanResult.consumed : ScanResult → Nat
  | .exhausted => 0
  | .needMore => 0
  | .frame _ c => c

/-- The frame fields, valid when the status is FRAME (R26). -/
def ScanResult.frame? : ScanResult → Option Frame
  | .exhausted => none
  | .needMore => none
  | .frame f _ => some f

/-- The `length` field of the response, the payload byte count (R26). -/
def Frame.length (f : Frame) : Byte := BitVec.ofNat 8 f.payload.length

/-- The count of garbage bytes before the frame, which a caller computes as `consumed - 5 - len(payload)` (R153). -/
def ScanResult.garbage : ScanResult → Nat
  | .exhausted => 0
  | .needMore => 0
  | .frame f c => c - Config.frameOverhead - f.payload.length

end Sys2Proof.Machine
end

