-- ==== Sys2Proof/Machine/Operands.lean ====
section
/-! DEFINITION. Operand assembly: the payload shapes the codec builds from its operands (spec 30_encoding.md R68,
20_memory.md R42). Nothing is sign-extended, scaled or shifted. -/

namespace Sys2Proof.Machine

/-- ENC_GET's payload, `[0x00]` (R68, R101). -/
def getPayload : List Byte := [0x00]

/-- ENC_SETF's payload: the pattern's four bytes, least significant first (R42, R68, R102). -/
def floatPayload (f : FloatBits) : List Byte :=
  [f.extractLsb' 0 8, f.extractLsb' 8 8, f.extractLsb' 16 8, f.extractLsb' 24 8]

/-- `bval mod 256`, the low 8 bits of an integer in two's complement; floor modulus, so -1 gives 255
(R68, R103, D6). -/
def lowByte (v : Int) : Byte := BitVec.ofNat 8 (v % 256).toNat

/-- ENC_SETB's payload (R68, R103). -/
def bytePayload (v : Int) : List Byte := [lowByte v]

/-- ENC_SESSION's payload: `[0x01]` to open, `[0x00]` to close (R68, R104). -/
def sessionPayload (opening : Bool) : List Byte := [if opening then 0x01 else 0x00]

end Sys2Proof.Machine
end

