-- ==== Sys2Proof/Machine/Ops.lean ====
section
/-! DEFINITION. The shared operations: the checksum (spec 40_checksum.md R90), building a frame (41_codec.md R100), the
scan (42_scanner.md R120 to R126), the drain loop (R131), and the accesses to RXBUF (20_memory.md R46 to R48).
There is no operation for taking an exception or returning from one: the block has neither (60_exceptions.md
R150, R151, R154, R156). -/

namespace Sys2Proof.Machine

/-! ### The checksum -/

/-- `sum(s)`: the sum of the bytes as unbounded natural numbers, 0 of the empty sequence (R11). -/
def byteSum (s : List Byte) : Nat := (s.map BitVec.toNat).sum

/-- CKSUM(type_id, payload): `(type_id + len(payload) + sum(payload)) mod 256` (R90). -/
def checksum (typeId : Byte) (payload : List Byte) : Byte :=
  BitVec.ofNat 8 ((typeId.toNat + payload.length + byteSum payload) % 256)

/-! ### The frame -/

/-- The wire layout `[header][command][type_id][length][payload...][checksum]` (R49, R60, R100). -/
def frameBytes (header command typeId : Byte) (payload : List Byte) : List Byte :=
  [header, command, typeId, BitVec.ofNat 8 payload.length] ++ payload ++ [checksum typeId payload]

/-- The wire bytes of a Frame value. -/
def Frame.toBytes (f : Frame) : List Byte := frameBytes f.header f.command f.typeId f.payload

/-- The header test of step S2 (R61, R122): 0xF0 or 0xF1. -/
def isHeader (b : Byte) : Bool := b == Config.hdrInput || b == Config.hdrOutput

/-! ### The receive buffer -/

/-- `MemRead(addr, n)`: `n` consecutive bytes from offset `addr`; the buffer does not change (R11, R46). -/
def Memory.read (m : Memory) (addr n : Nat) : List Byte := (m.drop addr).take n

/-- One byte at an offset; there is no byte at or past the buffer's length (R40, R46). -/
def Memory.byteAt (m : Memory) (k : Nat) : Option Byte := m[k]?

/-- Bytes added at the back (R47). -/
def Memory.append (m : Memory) (data : List Byte) : Memory := m ++ data

/-- The first `c` bytes removed (R48). -/
def Memory.dropFront (m : Memory) (c : Nat) : Memory := m.drop c

/-- The buffer's form: its length is at most BUF_CAP (R20, R33). A byte sequence has no other form to keep. -/
def Memory.wf (p : Config.Params) (m : Memory) : Bool :=
  match p.bufCap with
  | none => true
  | some c => decide (m.length ≤ c)

/-- RXLEN, derived from RXBUF (R21). -/
def State.rxlen (s : State) : Nat := s.rxbuf.length

/-- The state with another receive buffer. -/
def State.setRxbuf (s : State) (m : Memory) : State := { s with rxbuf := m }

/-- The state with the response record of the operation just served. -/
def State.respond (s : State) (r : Response) : State := { s with response := r }

/-! ### The scan -/

/-- How a scan ends at the offset where it ends: the three `return`s of R120. -/
inductive Stop
  | exhausted
  | needMore
  | accept (f : Frame)
  deriving DecidableEq, Repr

/-- One turn of R120's loop at an offset `i`, given `w`, the bytes that remain from it (`RXBUF[i..)`, so `n - i` is
`w.length`): the scan ends (`some`), or the offset is rejected and `i <- i + 1` (`none`). The tests stand in the order
S1, S2, S4, S5, which is part of the behaviour (R155). -/
def examine (m : Config.MinAvail) (w : List Byte) : Option Stop :=
  if w.length < m.toNat then some .exhausted
  else match w with
    | header :: command :: typeId :: length :: body =>
      if !isHeader header then none
      else if w.length < Config.frameOverhead + length.toNat then some .needMore
      else if body[length.toNat]? = some (checksum typeId (body.take length.toNat)) then
        some (.accept ⟨header, command, typeId, body.take length.toNat⟩)
      else none
    -- fewer than four bytes: S1 has already ended the scan (R123)
    | _ => some .exhausted

/-- The walk over candidate offsets (R22, R120): from offset `i`, with the bytes that remain from it, to the offset
where the scan ends and how it ends there. A rejected offset is left by one byte only (S2, S6; R122, R126). -/
def walk (m : Config.MinAvail) (i : Nat) : List Byte → Nat × Stop
  | [] => (i, .exhausted)
  | b :: w =>
    match examine m (b :: w) with
    | some stop => (i, stop)
    | none => walk m (i + 1) w

/-- What the scan returns when it ends at an offset (R121, R124, R125). -/
def Stop.result (i : Nat) : Stop → ScanResult
  | .exhausted => .exhausted
  | .needMore => .needMore
  | .accept f => .frame f (i + Config.frameOverhead + f.payload.length)

/-- scan(buf): a function of the byte sequence and of nothing else but the build's MIN_AVAIL (R120). -/
def scan (m : Config.MinAvail) (buf : List Byte) : ScanResult :=
  (walk m 0 buf).2.result (walk m 0 buf).1

/-! ### The drain loop -/

/-- What RX_DRAIN leaves: the frames found with their `consumed`, the status of the last scan, and RXBUF. -/
structure Drained where
  frames : List (Frame × Nat)
  status : Status
  rest : Memory
  deriving DecidableEq, Repr

/-- R131's loop, with a bound on the number of scans. -/
def drainLoop (m : Config.MinAvail) : Nat → Memory → Drained
  | 0, buf => ⟨[], (scan m buf).status, buf⟩
  | turns + 1, buf =>
    match scan m buf with
    | .exhausted => ⟨[], .exhausted, buf⟩
    | .needMore => ⟨[], .needMore, buf⟩
    | .frame f c =>
      let d := drainLoop m turns (buf.dropFront c)
      ⟨(f, c) :: d.frames, d.status, d.rest⟩

/-- The drain (R131). Every FRAME removes at least 5 bytes, so the length of the buffer bounds the number of
scans that find one. -/
def drain (m : Config.MinAvail) (buf : Memory) : Drained := drainLoop m buf.length buf

end Sys2Proof.Machine
end

