-- ==== Sys2Proof/Machine/Checksum.lean ====
section
/-! DEFINITION. The checksum family: CKSUM (spec 40_checksum.md). -/

namespace Sys2Proof.Machine

/-- CKSUM(type_id, payload) -> ck (R90). State read: none. State written: none. A payload longer than 255 bytes is
refused (R90, R158). -/
def execCksum (typeId : Byte) (payload : List Byte) (s : State) : Host.Outcome State Fault Refusal :=
  if payloadFits payload then .next (s.respond (.checksum (checksum typeId payload)))
  else .refused (.payloadTooLong payload.length)

end Sys2Proof.Machine
end

