-- ==== Sys2Proof/Machine/Codec.lean ====
section
/-! DEFINITION. The codec family, unit TX: the five encode operations (spec 41_codec.md). None reads or writes RXBUF
(10_state.md R24). -/

namespace Sys2Proof.Machine

/-- ENC_FRAME(header, command, type_id, payload) -> out (R100). Header and command are placed as given, unchecked. A
payload longer than 255 bytes is refused (R158). -/
def execEncFrame (header command typeId : Byte) (payload : List Byte) (s : State) :
    Host.Outcome State Fault Refusal :=
  if payloadFits payload then .next (s.respond (.bytes (frameBytes header command typeId payload)))
  else .refused (.payloadTooLong payload.length)

/-- ENC_GET(type_id) -> out (R101); header OUTPUT (R105). -/
def execEncGet (typeId : Byte) (s : State) : Host.Outcome State Fault Refusal :=
  .next (s.respond (.bytes (frameBytes Config.hdrOutput Config.cmdGet typeId getPayload)))

/-- ENC_SETF(type_id, fbits) -> out (R102); header OUTPUT (R105). Every pattern is sent as it is. -/
def execEncSetf (typeId : Byte) (fbits : FloatBits) (s : State) : Host.Outcome State Fault Refusal :=
  .next (s.respond (.bytes (frameBytes Config.hdrOutput Config.cmdSet typeId (floatPayload fbits))))

/-- ENC_SETB(type_id, bval) -> out (R103); header OUTPUT (R105). A value outside 0 to 255 keeps its low 8 bits. -/
def execEncSetb (typeId : Byte) (bval : Int) (s : State) : Host.Outcome State Fault Refusal :=
  .next (s.respond (.bytes (frameBytes Config.hdrOutput Config.cmdSet typeId (bytePayload bval))))

/-- ENC_SESSION(open) -> out (R104); header OUTPUT (R105), type_id 0. It changes no session state: the block has
none. -/
def execEncSession (opening : Bool) (s : State) : Host.Outcome State Fault Refusal :=
  .next (s.respond (.bytes (frameBytes Config.hdrOutput Config.cmdSession 0x00 (sessionPayload opening))))

end Sys2Proof.Machine
end

