-- ==== Sys2Proof/Machine/Control.lean ====
section
/-! DEFINITION. The control family: RESET (spec 70_reset_and_hazards.md R170) and the reserved codes
(30_encoding.md R72, 60_exceptions.md R158). -/

namespace Sys2Proof.Machine

/-- RESET() (R170): RXBUF becomes empty. Nothing else is state, so nothing else changes; its result is none. -/
def execReset (s : State) : Host.Outcome State Fault Refusal :=
  .next ((s.setRxbuf []).respond .none)

/-- A request with a reserved code is refused, with no state change (R72, R158). -/
def execReservedOp (op : OpCode) (_s : State) : Host.Outcome State Fault Refusal :=
  .refused (.reservedOp op)

end Sys2Proof.Machine
end

