-- ==== Sys2Proof/Machine/Scanner.lean ====
section
/-! DEFINITION. The scanner family, unit RX: RX_APPEND, RX_SCAN, RX_DRAIN (spec 42_scanner.md R129 to R131). -/

namespace Sys2Proof.Machine

/-- RX_APPEND(data) (R129): RXBUF becomes `RXBUF ++ data`. Past a finite BUF_CAP the whole append is refused and
RXBUF is unchanged (R129, R158, D3). It does not scan. -/
def execRxAppend (data : List Byte) (s : State) : Host.Outcome State Fault Refusal :=
  match s.params.bufCap with
  | none => .next ((s.setRxbuf (s.rxbuf.append data)).respond .none)
  | some cap =>
    if s.rxbuf.length + data.length > cap then .refused (.bufferFull (s.rxbuf.length + data.length) cap)
    else .next ((s.setRxbuf (s.rxbuf.append data)).respond .none)

/-- RX_SCAN() -> (status, frame, consumed) (R130): one scan; on FRAME the first `consumed` bytes are dropped in the
same operation; otherwise RXBUF is as before. -/
def execRxScan (s : State) : Host.Outcome State Fault Refusal :=
  match scan s.params.minAvail s.rxbuf with
  | .exhausted => .next (s.respond (.scan .exhausted))
  | .needMore => .next (s.respond (.scan .needMore))
  | .frame f c => .next ((s.setRxbuf (s.rxbuf.dropFront c)).respond (.scan (.frame f c)))

/-- RX_DRAIN() -> (frames, status) (R131): RX_SCAN repeated until no frame is found. -/
def execRxDrain (s : State) : Host.Outcome State Fault Refusal :=
  let d := drain s.params.minAvail s.rxbuf
  .next ((s.setRxbuf d.rest).respond (.drain d.frames d.status))

end Sys2Proof.Machine
end

