-- ==== Sys2Proof/Machine/Dispatch.lean ====
section
/-! DEFINITION. One arm per operation (spec 30_encoding.md R72). -/

namespace Sys2Proof.Machine

def exec (i : Instr) (s : State) : Host.Outcome State Fault Refusal :=
  match i with
  | .encFrame header command typeId payload => Sys2Proof.Machine.execEncFrame header command typeId payload s
  | .encGet typeId => Sys2Proof.Machine.execEncGet typeId s
  | .encSetf typeId fbits => Sys2Proof.Machine.execEncSetf typeId fbits s
  | .encSetb typeId bval => Sys2Proof.Machine.execEncSetb typeId bval s
  | .encSession opening => Sys2Proof.Machine.execEncSession opening s
  | .cksum typeId payload => Sys2Proof.Machine.execCksum typeId payload s
  | .rxAppend data => Sys2Proof.Machine.execRxAppend data s
  | .rxScan => Sys2Proof.Machine.execRxScan s
  | .rxDrain => Sys2Proof.Machine.execRxDrain s
  | .reset => Sys2Proof.Machine.execReset s
  | .reservedOp op => Sys2Proof.Machine.execReservedOp op s

end Sys2Proof.Machine
end

