-- ==== Sys2Proof/Machine/Step.lean ====
section
/-! DEFINITION. One step: the oldest waiting request is served (spec 20_memory.md R50: operations are executed one at
a time, each to completion, in the order issued; 00_scope.md R9: an operation is one atomic transition). -/

namespace Sys2Proof.Machine

/-- Serve the oldest request. With none waiting there is no transition to take, and the state stays as it is: the
block "never stops or halts by itself" (R14) and has no agent of its own (R7; assumption 7). -/
def step (s : State) : Host.Outcome State Fault Refusal :=
  match s.requests with
  | [] => .next s
  | r :: rest =>
    match decode r with
    | .ok i => exec i { s with requests := rest }
    | .error why => .refused (.malformedRequest why)

/-- The state with a table word's request at the front of the waiting requests, so that the next step serves it. -/
def State.withFetchWord (s : State) (nbits w : Nat) : State :=
  { s with requests := Request.ofTableWord nbits w :: s.requests }

end Sys2Proof.Machine
end

