-- ==== Sys2Proof/Machine/Pseudo.lean ====
section
/-! DEFINITION. The pseudo-operations of spec 30_encoding.md R74: the Session's methods, outside the block, as
expansions into operations of the block, and the start-up and close sequences of 70_reset_and_hazards.md R173. Where
the source gives no byte (BAUD_TYPE_ID, the enable and disable bytes, toBinary32) the free value of Config stands. -/

namespace Sys2Proof.Machine

/-- `get(type_id)` (R74). -/
def pseudoGet (typeId : Byte) : Instr := .encGet typeId

/-- `getAll()`: the ALL register is 255 (R74). -/
def pseudoGetAll : Instr := .encGet 255

/-- `setFloat(type_id, value)` (R74, D7). -/
def pseudoSetFloat {number : Type} (typeId : Byte) (value : number) : Instr :=
  .encSetf typeId (Config.toBinary32 value)

/-- `setByte(type_id, value)` (R74). -/
def pseudoSetByte (typeId : Byte) (value : Int) : Instr := .encSetb typeId value

/-- Session open (R74). -/
def pseudoSessionOpen : Instr := .encSession true

/-- Session close (R74). -/
def pseudoSessionClose : Instr := .encSession false

/-- The table of baud rates (R74, R173). -/
def baudRates : List Nat := [9600, 19200, 38400, 57600, 115200]

/-- The position of a rate in the table counted from 0, and 4, the last entry, when it is not there (R74). -/
def baudIndex (rate : Nat) : Nat := (baudRates.idxOf? rate).getD 4

/-- Baud-rate select: the general operation with the BAUD command, payload index + 1 (R74, R107). -/
def pseudoBaudSelect (rate : Nat) : Instr :=
  .encFrame Config.hdrOutput Config.cmdBaud Config.baudTypeId [BitVec.ofNat 8 (baudIndex rate + 1)]

/-- `enableOutput()`: register 219 (R74). -/
def pseudoEnableOutput : Instr := .encSetb 219 Config.enableOutputByte

/-- `disableOutput()`: register 219 (R74). -/
def pseudoDisableOutput : Instr := .encSetb 219 Config.disableOutputByte

/-- `startMetering()`: register 216 (R74). -/
def pseudoStartMetering : Instr := .encSetb 216 Config.startMeteringByte

/-- `stopMetering()`: register 216 (R74). -/
def pseudoStopMetering : Instr := .encSetb 216 Config.stopMeteringByte

/-- What the Session encodes on `open()`, in order (R173): model name 222, hardware 223, firmware 224, ALL 255. -/
def startUpSequence (rate : Nat) : List Instr :=
  [pseudoSessionOpen, pseudoBaudSelect rate, pseudoGet 222, pseudoGet 223, pseudoGet 224, pseudoGetAll]

/-- What the Session encodes on `close()` (R173). -/
def closeSequence : List Instr := [pseudoSessionClose]

end Sys2Proof.Machine
end

