-- ==== Sys2Proof/Machine/Reference.lean ====
section
/-! DEFINITION. Second forms that the spec gives beside the operations, for statements to compare the model with: R120's
loop over buffer offsets, written as the rule prints it; the 8-bit and 16-bit accumulators of R23 and R91; the validity
predicate of R94; the resuming scan of R134. No meaning calls anything here. -/

namespace Sys2Proof.Machine

/-- `RXBUF[k]` where R120's tests have established `k < n`; the 0 beyond the end is never read there (R46, R123). -/
def byteOr0 (buf : Memory) (k : Nat) : Byte := (buf.byteAt k).getD 0

/-- R120's loop at offset `i`, line by line, with a bound on the number of turns. -/
def scanLoop (m : Config.MinAvail) (buf : Memory) : (turns i : Nat) → ScanResult
  | 0, _ => .exhausted
  | turns + 1, i =>
    if buf.length - i < m.toNat then .exhausted
    else if byteOr0 buf i ≠ Config.hdrInput ∧ byteOr0 buf i ≠ Config.hdrOutput then scanLoop m buf turns (i + 1)
    else if i + 5 + (byteOr0 buf (i + 3)).toNat > buf.length then .needMore
    else if byteOr0 buf (i + 4 + (byteOr0 buf (i + 3)).toNat)
        = checksum (byteOr0 buf (i + 2)) (buf.read (i + 4) (byteOr0 buf (i + 3)).toNat) then
      .frame ⟨byteOr0 buf i, byteOr0 buf (i + 1), byteOr0 buf (i + 2),
        buf.read (i + 4) (byteOr0 buf (i + 3)).toNat⟩ (i + 5 + (byteOr0 buf (i + 3)).toNat)
    else scanLoop m buf turns (i + 1)

/-- An 8-bit accumulator that starts at 0 and drops the carry out of bit 7 at each addition (R23, R91). -/
def accumulate8 (s : List Byte) : Byte := s.foldl (fun acc b => acc + b) 0

/-- A 16-bit accumulator, reduced only at the end (R23, R92). -/
def accumulate16 (s : List Byte) : BitVec 16 := s.foldl (fun acc b => acc + b.setWidth 16) 0

/-- The length and checksum part of R94: `len(w) >= 5`, `len(w) = 5 + w[3]`, and the byte at `4 + w[3]` is the
checksum. Every sequence a TX encode operation returns meets it, whatever its header. -/
def wellFramed (w : Memory) : Bool :=
  decide (5 ≤ w.length) && w.length == 5 + (byteOr0 w 3).toNat &&
    byteOr0 w (4 + (byteOr0 w 3).toNat) == checksum (byteOr0 w 2) (w.read 4 (byteOr0 w 3).toNat)

/-- R94's validity predicate: a well framed sequence that starts with a header value. -/
def validFrame (w : Memory) : Bool := isHeader (byteOr0 w 0) && wellFramed w

/-- The scan of an implementation that remembers a dead prefix of `i` bytes and starts from there (R22, R134). -/
def scanResuming (m : Config.MinAvail) (i : Nat) (buf : Memory) : ScanResult :=
  (walk m i (buf.drop i)).2.result (walk m i (buf.drop i)).1

/-- The offset at which the scan of a buffer ends (R22). -/
def stopOffset (m : Config.MinAvail) (buf : Memory) : Nat := (walk m 0 buf).1

/-- A scan result seen from `k` bytes further forward: `consumed` counts `k` more garbage bytes. -/
def ScanResult.shift (k : Nat) : ScanResult → ScanResult
  | .exhausted => .exhausted
  | .needMore => .needMore
  | .frame f c => .frame f (c + k)

/-- Every offset of `x` is rejected when tried within `x ++ v`: the condition of R135 and R136. -/
def rejectsAll (m : Config.MinAvail) (x v : Memory) : Prop :=
  ∀ j, j < x.length → examine m ((x ++ v).drop j) = none

end Sys2Proof.Machine
end

