-- ==== Sys2Proof/Safety.lean ====
section
/-! DEFINITION. Runs and what is observed of them (spec 00_scope.md R14), the launch premises a claim may take (R14), and
the invariant of the block's state. -/

namespace Sys2Proof.Machine

/-! ### Runs -/

/-- A run: a finite sequence of operations from a state. What is observed is the sequence of results and the state
left, whose RXBUF R14 names (R14). It stops at the first operation that is refused. -/
def observe : List Instr → State → Host.Outcome (List Response × State) Fault Refusal
  | [], s => .next ([], s)
  | i :: is, s =>
    match exec i s with
    | .next t =>
      match observe is t with
      | .next (rs, u) => .next (t.response :: rs, u)
      | .fault r => .fault r
      | .refused r => .refused r
    | .fault r => .fault r
    | .refused r => .refused r

/-- The frames a result delivers, in order, without their counts. -/
def Response.framesOf : Response → List Frame
  | .none => []
  | .bytes _ => []
  | .checksum _ => []
  | .scan r => r.frame?.toList
  | .drain frames _ => frames.map Prod.fst

/-! ### Launch premises (R14)

`single_owner` has no predicate: a run is one sequence of operations, so the breach has no move (R31, D17). -/

/-- `reset_state`: RXBUF is empty. -/
def resetState (s : State) : Prop := s.rxbuf = []

/-- `operands_in_range`: payload at most 255 bytes. -/
def operandsInRange (i : Instr) : Bool :=
  match i with
  | .encFrame _ _ _ payload => payloadFits payload
  | .cksum _ payload => payloadFits payload
  | .encGet _ | .encSetf _ _ | .encSetb _ _ | .encSession _ | .rxAppend _ | .rxScan | .rxDrain | .reset
  | .reservedOp _ => true

/-- `operands_in_range` where a claim is to hold for the original software too: the integer operand of ENC_SETB is in
0 to 255 as well (D6, D13). -/
def operandsInRangeOriginal (i : Instr) : Bool :=
  operandsInRange i &&
    match i with
    | .encSetb _ bval => decide (0 ≤ bval ∧ bval ≤ 255)
    | .encFrame _ _ _ _ | .encGet _ | .encSetf _ _ | .encSession _ | .cksum _ _ | .rxAppend _ | .rxScan | .rxDrain
    | .reset | .reservedOp _ => true

/-- One append stays within BUF_CAP (empty when BUF_CAP is unbounded). -/
def appendFits (data : List Byte) (s : State) : Bool := (s.rxbuf.append data).wf s.params

/-- `fits`: every append of the run stays within BUF_CAP. -/
def fits : List Instr → State → Bool
  | [], _ => true
  | i :: is, s =>
    (match i with
      | .rxAppend data => appendFits data s
      | .encFrame _ _ _ _ | .encGet _ | .encSetf _ _ | .encSetb _ _ | .encSession _ | .cksum _ _ | .rxScan
      | .rxDrain | .reset | .reservedOp _ => true) &&
    match exec i s with
    | .next t => fits is t
    | .fault _ => true
    | .refused _ => true

/-! ### The invariant -/

/-- A Frame value a scan may return (R26, R27): a header value, a payload the length byte can count. -/
def Frame.scanned (f : Frame) : Bool := isHeader f.header && payloadFits f.payload

/-- A response record the block can give (R25, R26, R28, R131). -/
def Response.wf : Response → Bool
  | .none => true
  | .bytes out => wellFramed out
  | .checksum _ => true
  | .scan .exhausted => true
  | .scan .needMore => true
  | .scan (.frame f c) => f.scanned && decide (5 + f.payload.length ≤ c)
  | .drain frames status =>
    frames.all (fun fc => fc.1.scanned && decide (5 + fc.1.payload.length ≤ fc.2)) && status != .frame

/-- The invariant: legal parameters (R6), a buffer within its capacity (R20, R33), a response record of the form
R25, R26 and R131 give. -/
structure State.Inv (s : State) : Prop where
  legal : s.params.legal = true
  bounded : s.rxbuf.wf s.params = true
  answered : s.response.wf = true

/-- The operations of unit TX: bit 3 of the code is 0 (R72). -/
def isTx (i : Instr) : Bool := !(opCode i).getLsbD 3

end Sys2Proof.Machine
end

