-- ==== Sys2Proof/Certificates/Slice0/Obligations.lean ====
section
/-! DEFINITION. The statements for the provers. Each says in its docstring which rule of the spec it formalises. A
conclusion `exec i s = .next { s with ... }` is the operation's completion, its result and its frame in one: every
field not named is as it was. -/

open Sys2Proof Sys2Proof.Machine

/-! ### Requests -/

/-- R72 (the numbers are the spec's decision D9): the code selects the operation, the fields R25 and R26 give it are its
operands, and no other field matters; the six reserved codes are the reserved operation, which is refused in every state;
bit 3 of the code is 0 for the unit TX, 1 for RX and RESET. That a record of ENC_FRAME or CKSUM may carry more bytes than
`plen`, and that those beyond are no payload, is the model's choice (assumption 8). -/
def Obligations.OperationCodesSelectOperations : Prop :=
  (∀ r : Request,
    (r.op = 0#4 → r.plen.toNat ≤ r.payload.length →
      decode r = .ok (.encFrame r.header r.command r.typeId (r.payload.take r.plen.toNat))) ∧
    (r.op = 1#4 → decode r = .ok (.encGet r.typeId)) ∧
    (r.op = 2#4 → decode r = .ok (.encSetf r.typeId r.fbits)) ∧
    (r.op = 3#4 → decode r = .ok (.encSetb r.typeId r.bval)) ∧
    (r.op = 4#4 → decode r = .ok (.encSession r.opening)) ∧
    (r.op = 5#4 → r.plen.toNat ≤ r.payload.length →
      decode r = .ok (.cksum r.typeId (r.payload.take r.plen.toNat))) ∧
    (r.op = 8#4 → decode r = .ok (.rxAppend r.data)) ∧
    (r.op = 9#4 → decode r = .ok .rxScan) ∧
    (r.op = 10#4 → decode r = .ok .rxDrain) ∧
    (r.op = 15#4 → decode r = .ok .reset) ∧
    (r.op ∈ [6#4, 7#4, 11#4, 12#4, 13#4, 14#4] →
      decode r = .ok (.reservedOp r.op) ∧ ∀ s, exec (.reservedOp r.op) s = .refused (.reservedOp r.op))) ∧
  (∀ (h k t : Byte) (p : List Byte) (f : FloatBits) (v : Int) (o : Bool),
    ∀ i ∈ [.encFrame h k t p, .encGet t, .encSetf t f, .encSetb t v, .encSession o, .cksum t p],
      (opCode i).getLsbD 3 = false ∧ isTx i = true) ∧
  ∀ data : List Byte, ∀ i ∈ [.rxAppend data, .rxScan, .rxDrain, .reset],
    (opCode i).getLsbD 3 = true ∧ isTx i = false

/-- R72 on request records written out: a record of each unit, with fields it does not use set. -/
def Obligations.SampleRequestsDecode : Prop :=
  decode { op := 0b0000#4, header := 0xF0, command := 0xA1, typeId := 0xC0, plen := 4,
           payload := [0x00, 0x00, 0x98, 0x41] } = .ok (.encFrame 0xF0 0xA1 0xC0 [0x00, 0x00, 0x98, 0x41]) ∧
  decode { op := 0b0001#4, header := 0xF0, typeId := 0x22, bval := 7 } = .ok (.encGet 0x22) ∧
  decode { op := 0b0011#4, typeId := 0xD7, bval := -1 } = .ok (.encSetb 0xD7 (-1)) ∧
  decode { op := 0b1000#4, data := [0xC0, 0x04], plen := 9 } = .ok (.rxAppend [0xC0, 0x04]) ∧
  decode { op := 0b1110#4 } = .ok (.reservedOp 14#4)

/-- Every well-formed operation survives its request record, with every operand at every value (R25, R26, R72; the record
stands for an encoding, assumption 8). -/
def Obligations.DecodeOfEncodedOperation : Prop :=
  ∀ i : Instr, i.wellFormed = true → decode (encode i) = .ok i

/-- What a record decodes to is well formed, has the record's code, and no two operations share a record. -/
def Obligations.DecodedOperationIsWellFormed : Prop :=
  (∀ (r : Request) (i : Instr), decode r = .ok i → i.wellFormed = true ∧ opCode i = r.op) ∧
  ∀ i j : Instr, i.wellFormed = true → j.wellFormed = true → encode i = encode j → i = j

/-- A step serves the oldest waiting request: it is `exec` of the decoded operation at the state with that request taken
off, and nothing is added around it (R50; the list of requests is the model's, assumption 1). -/
def Obligations.StepServesTheOldestRequest : Prop :=
  ∀ (s : State) (r : Request) (rest : List Request) (i : Instr),
    s.requests = r :: rest → decode r = .ok i → step s = exec i { s with requests := rest }

/-- The model's choices at the request port: with no request waiting a step changes nothing (assumption 7), and a
record that declares more payload bytes than it carries is refused by name (assumption 8). -/
def Obligations.IdleStepAndMalformedRequest : Prop :=
  (∀ s : State, s.requests = [] → step s = .next s) ∧
  ∀ (s : State) (r : Request) (rest : List Request), s.requests = r :: rest → (r.op = 0#4 ∨ r.op = 5#4) →
    r.payload.length < r.plen.toNat →
    step s = .refused (.malformedRequest (.payloadShort r.plen.toNat r.payload.length))

/-- Reserved codes are refused whatever else the record and the state hold (R72, R158, the spec's decision D9; the list of
requests is the model's, assumption 1). -/
def Obligations.ReservedCodesAreRefused : Prop :=
  ∀ (s : State) (r : Request) (rest : List Request), s.requests = r :: rest →
    (r.op = 6#4 ∨ r.op = 7#4 ∨ r.op = 11#4 ∨ r.op = 12#4 ∨ r.op = 13#4 ∨ r.op = 14#4) →
    step s = .refused (.reservedOp r.op) ∧ exec (.reservedOp r.op) s = .refused (.reservedOp r.op)

/-! ### The checksum -/

/-- R90: CKSUM and its corner of an empty payload. R90 calls a payload of more than 255 bytes outside the domain; that
it is refused by name is the spec's decision (R158, D13; assumption 16). -/
def Obligations.CksumIsSumModulo256 : Prop :=
  ∀ (typeId : Byte) (payload : List Byte), opCode (.cksum typeId payload) = 5#4 ∧
    (payload.length ≤ 255 → ∃ ck : Byte,
      (∀ s : State, exec (.cksum typeId payload) s = .next { s with response := .checksum ck }) ∧
      ck.toNat = (typeId.toNat + payload.length + (payload.map BitVec.toNat).sum) % 256 ∧
      (payload = [] → ck = typeId)) ∧
    (255 < payload.length → ∀ s : State,
      exec (.cksum typeId payload) s = .refused (.payloadTooLong payload.length))

/-- The sum in any order, with an 8-bit accumulator that drops carries, is the checksum (R91); a 16-bit accumulator holds
the exact sum, so it never overflows (R92), and its low byte is the checksum (R23). The spec marks the three rules as
derived from R90. -/
def Obligations.AccumulatorsGiveTheChecksum : Prop :=
  ∀ (typeId : Byte) (payload summed : List Byte), payload.length ≤ 255 →
    summed.Perm (typeId :: BitVec.ofNat 8 payload.length :: payload) →
    accumulate8 summed = checksum typeId payload ∧
    (accumulate16 summed).setWidth 8 = checksum typeId payload ∧
    (accumulate16 summed).toNat = typeId.toNat + payload.length + (payload.map BitVec.toNat).sum

/-- R93 (b), (c): what the checksum does not catch. Reordering the payload, exchanging type_id with a payload byte, and
two changes that cancel modulo 256 leave it as it was. -/
def Obligations.ChecksumMissesCompensatedChanges : Prop :=
  (∀ (t : Byte) (p q : List Byte), p.Perm q → checksum t p = checksum t q) ∧
  (∀ (t u : Byte) (p q : List Byte), checksum t (p ++ u :: q) = checksum u (p ++ t :: q)) ∧
  ∀ (t a b d : Byte) (p q r : List Byte),
    checksum t (p ++ a :: (q ++ b :: r)) = checksum t (p ++ (a + d) :: (q ++ (b - d) :: r))

/-! ### The encode operations -/

/-- R100: ENC_FRAME, for every header and command, on every payload the length byte can count. That a longer payload is
refused by name is the spec's decision (R158, D13; assumption 16). -/
def Obligations.EncFrameReturnsTheLayout : Prop :=
  ∀ (header command typeId : Byte) (payload : List Byte), opCode (.encFrame header command typeId payload) = 0#4 ∧
    (payload.length ≤ 255 → ∃ len ck : Byte,
      (∀ s : State, exec (.encFrame header command typeId payload) s =
        .next { s with response := .bytes ([header, command, typeId, len] ++ payload ++ [ck]) }) ∧
      len.toNat = payload.length ∧
      ck.toNat = (typeId.toNat + payload.length + (payload.map BitVec.toNat).sum) % 256) ∧
    (255 < payload.length → ∀ s : State,
      exec (.encFrame header command typeId payload) s = .refused (.payloadTooLong payload.length))

/-- R101: ENC_GET. -/
def Obligations.EncGetReturnsTheGetFrame : Prop :=
  ∀ (typeId : Byte) (s : State), opCode (.encGet typeId) = 1#4 ∧
    exec (.encGet typeId) s = .next { s with response := .bytes [0xF1, 0xA1, typeId, 0x01, 0x00, typeId + 1] }

/-- R102, R42: ENC_SETF puts the pattern's bytes least significant first. Its header byte 0xF1 is the spec's inference
(R105, D14; assumption 11). -/
def Obligations.EncSetfReturnsLittleEndianFloat : Prop :=
  ∀ (typeId : Byte) (fbits : FloatBits) (s : State), opCode (.encSetf typeId fbits) = 2#4 ∧
    exec (.encSetf typeId fbits) s =
      .next { s with response := .bytes ([0xF1, 0xB1, typeId, 0x04] ++
        [fbits.extractLsb 7 0, fbits.extractLsb 15 8, fbits.extractLsb 23 16, fbits.extractLsb 31 24] ++
        [typeId + 4 + fbits.extractLsb 7 0 + fbits.extractLsb 15 8 + fbits.extractLsb 23 16
          + fbits.extractLsb 31 24]) }

/-- R103: ENC_SETB keeps the value modulo 256, for every integer. Modulo 256 outside 0 to 255 is the spec's own reading
(D6; assumption 10); with R14's premise for the original software, `0 <= bval <= 255`, the byte sent is the value
itself. The header byte 0xF1 is the spec's inference (R105, D14; assumption 11). -/
def Obligations.EncSetbKeepsTheLowByte : Prop :=
  ∀ (typeId : Byte) (bval : Int), opCode (.encSetb typeId bval) = 3#4 ∧ ∃ v : Byte,
    (∀ s : State, exec (.encSetb typeId bval) s =
      .next { s with response := .bytes [0xF1, 0xB1, typeId, 0x01, v, typeId + 1 + v] }) ∧
    (v.toNat : Int) = bval % 256 ∧
    (operandsInRangeOriginal (.encSetb typeId bval) = true → (v.toNat : Int) = bval)

/-- R104: ENC_SESSION's two frames; no session state changes. The header byte 0xF1 is the spec's inference (R105, D14;
assumption 11). -/
def Obligations.EncSessionReturnsTheSessionFrame : Prop :=
  ∀ s : State, opCode (.encSession true) = 4#4 ∧ opCode (.encSession false) = 4#4 ∧
    exec (.encSession true) s = .next { s with response := .bytes [0xF1, 0xC1, 0x00, 0x01, 0x01, 0x02] } ∧
    exec (.encSession false) s = .next { s with response := .bytes [0xF1, 0xC1, 0x00, 0x01, 0x00, 0x01] }

/-- R94, R105: what an encode operation returns has the length its byte 3 declares and its checksum last; the four
convenience operations return valid frames with the header 0xF1, which but for ENC_GET is the spec's inference (D14;
assumption 11), and ENC_FRAME does for a header of 0xF0 or 0xF1. -/
def Obligations.EncodedBytesAreFramed : Prop :=
  ∀ (i : Instr) (s t : State) (out : List Byte), exec i s = .next t → t.response = .bytes out → isTx i = true →
    wellFramed out = true ∧ 5 ≤ out.length ∧ out.length ≤ 260 ∧
    (∀ h k ty p, i = .encFrame h k ty p → out[0]? = some h ∧ (h = 0xF0 ∨ h = 0xF1 → validFrame out = true)) ∧
    ((∀ h k ty p, i ≠ .encFrame h k ty p) → out[0]? = some 0xF1 ∧ validFrame out = true)

/-- R49: the frame-relative offset map, on the frame ENC_FRAME returns. -/
def Obligations.FrameOffsetMap : Prop :=
  ∀ (header command typeId : Byte) (payload : List Byte) (s : State), payload.length ≤ 255 →
    ∃ out : Memory, exec (.encFrame header command typeId payload) s = .next { s with response := .bytes out } ∧
      out.length = 5 + payload.length ∧ 5 ≤ out.length ∧ out.length ≤ 260 ∧
      out.byteAt 0 = some header ∧ out.byteAt 1 = some command ∧ out.byteAt 2 = some typeId ∧
      (∃ len : Byte, out.byteAt 3 = some len ∧ len.toNat = payload.length) ∧
      (∀ j, j < payload.length → out.byteAt (4 + j) = payload[j]?) ∧
      out.byteAt (4 + payload.length) = some (checksum typeId payload)

/-- R24: a TX operation writes nothing but its response, and its result depends on its operands alone. -/
def Obligations.TxIsPure : Prop :=
  ∀ (i : Instr) (s t : State), isTx i = true → exec i s = .next t →
    t = { s with response := t.response } ∧ ∀ u : State, exec i u = .next { u with response := t.response }

/-- R53 (which the spec derives from R24): TX and RX do not interact. In either order they give the same results and
leave the same buffer. -/
def Obligations.TxAndRxCommute : Prop :=
  ∀ (i j : Instr) (s t u : State), isTx i = true → isTx j = false → exec i s = .next t → exec j s = .next u →
    ∃ v w, exec j t = .next v ∧ exec i u = .next w ∧ v.response = u.response ∧ w.response = t.response ∧
      v.rxbuf = w.rxbuf ∧ v.rxbuf = u.rxbuf ∧ t.rxbuf = s.rxbuf

/-- R106: every TX operation returns a result in every state, for every value of its operands within the widths of
R25. -/
def Obligations.TxIsTotal : Prop :=
  ∀ (i : Instr), isTx i = true → i.wellFormed = true → (∀ op, i ≠ .reservedOp op) →
    ∃ result : Response, result ≠ .none ∧ ∀ s : State, exec i s = .next { s with response := result }

/-! ### RX_APPEND, RX_SCAN, RX_DRAIN, RESET -/

/-- R129: RX_APPEND adds the data at the back, and past a finite BUF_CAP is refused whole, which is the spec's decision D3
(assumption 5). It does not scan. -/
def Obligations.RxAppendAddsAtTheBack : Prop :=
  ∀ (data : List Byte) (s : State), opCode (.rxAppend data) = 8#4 ∧
    ((∀ cap, s.params.bufCap = some cap → s.rxbuf.length + data.length ≤ cap) →
      exec (.rxAppend data) s = .next { s with rxbuf := s.rxbuf ++ data, response := .none }) ∧
    ∀ cap, s.params.bufCap = some cap → cap < s.rxbuf.length + data.length →
      exec (.rxAppend data) s = .refused (.bufferFull (s.rxbuf.length + data.length) cap)

/-- R47: the bytes in the buffer keep their offsets, and the new ones take the offsets from `n` on in order. -/
def Obligations.AppendKeepsOffsets : Prop :=
  ∀ (data : List Byte) (s t : State), exec (.rxAppend data) s = .next t →
    (∀ k, k < s.rxlen → t.rxbuf.byteAt k = s.rxbuf.byteAt k) ∧
    (∀ k, t.rxbuf.byteAt (s.rxlen + k) = data[k]?) ∧
    t.rxlen = s.rxlen + data.length ∧ (data = [] → t.rxbuf = s.rxbuf)

/-- R130: RX_SCAN, for each of the three outcomes of the scan; without a frame a second one returns the same again. That
the operation itself truncates is the spec's decision D15. -/
def Obligations.RxScanTruncatesOnFrame : Prop :=
  ∀ s : State, opCode .rxScan = 9#4 ∧
    (∀ f c, scan s.params.minAvail s.rxbuf = .frame f c →
      exec .rxScan s = .next { s with rxbuf := s.rxbuf.drop c, response := .scan (.frame f c) }) ∧
    ∀ r, (r = .needMore ∨ r = .exhausted) → scan s.params.minAvail s.rxbuf = r →
      exec .rxScan s = .next { s with response := .scan r } ∧
      exec .rxScan { s with response := .scan r } = .next { s with response := .scan r }

/-- R48: `5 <= consumed <= n`; what was at offset `k + consumed` is now at `k`; nothing else is left. -/
def Obligations.TruncationRenumbersOffsets : Prop :=
  ∀ (s t : State) (f : Frame) (c : Nat), exec .rxScan s = .next t → t.response = .scan (.frame f c) →
    5 + f.payload.length ≤ c ∧ c ≤ s.rxlen ∧ t.rxlen + c = s.rxlen ∧
    ∀ k, t.rxbuf.byteAt k = s.rxbuf.byteAt (k + c)

/-- R46, R130: a scan without a frame leaves the buffer as it was, reports `consumed` 0, and a second scan with no append
between returns the same again. -/
def Obligations.ScanWithoutFrameIsIdempotent : Prop :=
  ∀ (s t : State) (r : ScanResult), exec .rxScan s = .next t → t.response = .scan r → r.status ≠ .frame →
    t.rxbuf = s.rxbuf ∧ r.consumed = 0 ∧ exec .rxScan t = .next t

/-- R131 (as an operation of the block, the spec's decision D16): RX_DRAIN is RX_SCAN repeated until no frame is found; at
most `floor(n / 5)` frames come out. -/
def Obligations.RxDrainRepeatsTheScan : Prop :=
  ∀ s : State, opCode .rxDrain = 10#4 ∧ ∃ frames status rest, frames.length ≤ s.rxlen / 5 ∧
    exec .rxDrain s = .next { s with rxbuf := rest, response := .drain frames status } ∧
    (scan s.params.minAvail s.rxbuf = .exhausted → frames = [] ∧ status = .exhausted ∧ rest = s.rxbuf) ∧
    (scan s.params.minAvail s.rxbuf = .needMore → frames = [] ∧ status = .needMore ∧ rest = s.rxbuf) ∧
    ∀ f c, scan s.params.minAvail s.rxbuf = .frame f c → ∃ later,
      exec .rxDrain { s with rxbuf := s.rxbuf.drop c } =
        .next { s with rxbuf := rest, response := .drain later status } ∧
      frames = (f, c) :: later

/-- R131: a drain ends with no frame left to find, delivers at most `floor(n / 5)` frames, and removes from the front
exactly the bytes it counts as consumed. -/
def Obligations.DrainIsBoundedAndComplete : Prop :=
  ∀ (s t : State) (frames : List (Frame × Nat)) (status : Status),
    exec .rxDrain s = .next t → t.response = .drain frames status →
    status ≠ .frame ∧ (scan t.params.minAvail t.rxbuf).status = status ∧ frames.length ≤ s.rxlen / 5 ∧
    t.rxbuf = s.rxbuf.drop (frames.map Prod.snd).sum ∧ (frames.map Prod.snd).sum ≤ s.rxlen ∧
    ∀ f c, (f, c) ∈ frames → isHeader f.header = true ∧ 5 + f.payload.length ≤ c

/-- R170 (the spec's decisions D4 and D5): RESET empties RXBUF. That the model's own fields behave so, the response none,
the waiting requests and the parameters as before, is the model's choice (assumption 18). -/
def Obligations.ResetEmptiesTheBuffer : Prop :=
  ∀ s : State, opCode .reset = 15#4 ∧ exec .reset s = .next { s with rxbuf := [], response := .none }

/-- R171 (which the spec derives from R170 and R121): after RESET, and in the reset state, RXBUF is empty, and the first
scan with nothing appended returns EXHAUSTED. -/
def Obligations.FirstScanAfterResetIsExhausted : Prop :=
  State.reset.rxbuf = [] ∧
  (∀ s t : State, exec .reset s = .next t →
    t.rxbuf = [] ∧ t.rxlen = 0 ∧ exec .rxScan t = .next { t with response := .scan .exhausted }) ∧
  exec .rxScan State.reset = .next { State.reset with response := .scan .exhausted }

/-! ### The scan function -/

/-- The scan equals the loop R120 prints, over buffer offsets, for both settings of MIN_AVAIL. -/
def Obligations.ScanIsTheOffsetLoop : Prop :=
  ∀ (m : Config.MinAvail) (buf : Memory), scan m buf = scanLoop m buf (buf.length + 1) 0

/-- R121: a scan ends EXHAUSTED exactly when every offset with MIN_AVAIL bytes from it was rejected; it then ends at
offset `max(0, n - MIN_AVAIL + 1)`, and the last `MIN_AVAIL - 1` bytes were not looked at. -/
def Obligations.ExhaustedWhenTooFewBytesRemain : Prop :=
  (∀ (m : Config.MinAvail) (buf : Memory), scan m buf = .exhausted ↔
    ∀ j, j + m.toNat ≤ buf.length → examine m (buf.drop j) = none) ∧
  (∀ (m : Config.MinAvail) (buf : Memory), scan m buf = .exhausted → stopOffset m buf = buf.length + 1 - m.toNat) ∧
  ∀ (m : Config.MinAvail) (buf : Memory), buf.length < m.toNat → scan m buf = .exhausted

/-- R132, R22: a scan of `n` bytes rejects at most `max(0, n - MIN_AVAIL + 1)` offsets, so the scan offset never passes
the buffer. -/
def Obligations.RejectedOffsetsAreBounded : Prop :=
  ∀ (m : Config.MinAvail) (buf : Memory),
    stopOffset m buf ≤ buf.length + 1 - m.toNat ∧ stopOffset m buf ≤ buf.length ∧
    (∀ j, j < stopOffset m buf → examine m (buf.drop j) = none) ∧
    examine m (buf.drop (stopOffset m buf)) ≠ none

/-- R26, R28: the fields of the response record. The status codes are 0, 1 and 2; `consumed` is 0 unless the status is
FRAME and then at least 5 + length; `length` equals the payload's length, and the header is 0xF0 or 0xF1. -/
def Obligations.ResponseRecordFields : Prop :=
  ∀ (m : Config.MinAvail) (buf : Memory),
    ((scan m buf).status = .exhausted → (scan m buf).status.code = 0#2) ∧
    ((scan m buf).status = .frame → (scan m buf).status.code = 1#2) ∧
    ((scan m buf).status = .needMore → (scan m buf).status.code = 2#2) ∧
    (scan m buf).status.code ≠ 3#2 ∧
    ((scan m buf).status ≠ .frame → (scan m buf).consumed = 0 ∧ (scan m buf).frame? = none) ∧
    ((scan m buf).status = .frame → ∃ f, (scan m buf).frame? = some f ∧ f.length.toNat = f.payload.length ∧
      (f.header = 0xF0 ∨ f.header = 0xF1) ∧ 5 + f.payload.length + (scan m buf).garbage = (scan m buf).consumed)

/-- R122: a byte that is neither 0xF0 nor 0xF1 is skipped by one byte and counted into `consumed`. -/
def Obligations.NonHeaderByteIsSkipped : Prop :=
  ∀ (m : Config.MinAvail) (b : Byte) (w : List Byte), m.toNat ≤ (b :: w).length → b ≠ 0xF0 → b ≠ 0xF1 →
    scan m (b :: w) = (scan m w).shift 1

/-- R126: after a checksum mismatch the scan goes on one byte further, not past the candidate. -/
def Obligations.MismatchStepsOneByte : Prop :=
  ∀ (m : Config.MinAvail) (h k t l : Byte) (payload rest : List Byte) (ck : Byte),
    m.toNat ≤ (h :: k :: t :: l :: (payload ++ ck :: rest)).length →
    payload.length = l.toNat → ck ≠ checksum t payload →
    scan m (h :: k :: t :: l :: (payload ++ ck :: rest)) =
      (scan m (k :: t :: l :: (payload ++ ck :: rest))).shift 1

/-- R124, R128: the first offset that holds a header value and is incomplete ends the scan NEED_MORE, whatever lies at
higher offsets; and NEED_MORE has no other cause. -/
def Obligations.IncompleteCandidateStopsTheScan : Prop :=
  ∀ (m : Config.MinAvail) (buf : Memory), scan m buf = .needMore ↔
    ∃ (x : Memory) (h k t l : Byte) (body : List Byte), buf = x ++ h :: k :: t :: l :: body ∧
      rejectsAll m x (h :: k :: t :: l :: body) ∧ (h = 0xF0 ∨ h = 0xF1) ∧
      m.toNat ≤ 4 + body.length ∧ buf.length < x.length + 5 + l.toNat

/-- R125, R127: a scan returns a frame exactly when the buffer holds that frame's bytes behind a run of rejected offsets,
with MIN_AVAIL bytes from its start; `consumed` is the run and the frame. The command is not tested (R123). -/
def Obligations.FrameIsTheEarliestValidCandidate : Prop :=
  ∀ (m : Config.MinAvail) (buf : Memory) (f : Frame) (c : Nat), scan m buf = .frame f c ↔
    ∃ x tail : Memory, buf = x ++ frameBytes f.header f.command f.typeId f.payload ++ tail ∧
      rejectsAll m x (frameBytes f.header f.command f.typeId f.payload ++ tail) ∧
      (f.header = 0xF0 ∨ f.header = 0xF1) ∧ f.payload.length ≤ 255 ∧
      m.toNat ≤ 5 + f.payload.length + tail.length ∧ c = x.length + 5 + f.payload.length

/-- R108 (which the spec derives from R100 and R121 to R125): what ENC_FRAME returns, scanned alone, gives the frame
back with `consumed` its length; with MIN_AVAIL 6 and an empty payload the scan is EXHAUSTED; with another header the
scan starts no frame at offset 0. -/
def Obligations.EncodedFrameScansBack : Prop :=
  ∀ (m : Config.MinAvail) (h k t : Byte) (p : List Byte), p.length ≤ 255 →
    ((h = 0xF0 ∨ h = 0xF1) → m.toNat ≤ 5 + p.length →
      scan m (frameBytes h k t p) = .frame ⟨h, k, t, p⟩ (5 + p.length)) ∧
    (m.toNat = 6 → p = [] → scan m (frameBytes h k t p) = .exhausted) ∧
    (h ≠ 0xF0 → h ≠ 0xF1 → ∀ f c, scan m (frameBytes h k t p) = .frame f c → 5 + f.payload.length < c)

/-- R108 through the operations: encode, append what was returned, scan. From an empty buffer the frame comes back and
the buffer is empty again (program P1). -/
def Obligations.LoopBackRun : Prop :=
  ∀ (h k t : Byte) (p : List Byte) (s : State), (h = 0xF0 ∨ h = 0xF1) → p.length ≤ 255 →
    s.params.minAvail.toNat ≤ 5 + p.length → s.rxbuf = [] → s.params.legal = true → ∃ out,
      observe [.encFrame h k t p, .rxAppend out, .rxScan] s =
        .next ([.bytes out, .none, .scan (.frame ⟨h, k, t, p⟩ (5 + p.length))],
          { s with response := .scan (.frame ⟨h, k, t, p⟩ (5 + p.length)) })

/-- R133 (a): bytes that arrive later never change a frame already found, nor how much it consumes. -/
def Obligations.FoundFrameIsStableUnderAppend : Prop :=
  ∀ (m : Config.MinAvail) (b d : Memory) (f : Frame) (c : Nat),
    scan m b = .frame f c → scan m (b ++ d) = .frame f c

/-- R133 (b): after NEED_MORE at offset `i`, the longer buffer rejects the same offsets below `i` and tests the same
candidate: NEED_MORE at `i` while it is incomplete, and once it is complete either a frame at `i` or a later stop. -/
def Obligations.StalledCandidateIsTestedAgain : Prop :=
  ∀ (m : Config.MinAvail) (b d : Memory), scan m b = .needMore → ∃ l : Byte,
    b.byteAt (stopOffset m b + 3) = some l ∧
    (∀ j, j < stopOffset m b → examine m ((b ++ d).drop j) = none) ∧
    ((b ++ d).length < stopOffset m b + 5 + l.toNat →
      scan m (b ++ d) = .needMore ∧ stopOffset m (b ++ d) = stopOffset m b) ∧
    (stopOffset m b + 5 + l.toNat ≤ (b ++ d).length →
      (∃ f, scan m (b ++ d) = .frame f (stopOffset m b + 5 + l.toNat)) ∨
      stopOffset m b < stopOffset m (b ++ d))

/-- R133 (c): how arriving bytes are cut into chunks does not matter to the frames found, provided a drain follows the
last append: same frames, same counts, same order, same RXBUF. -/
def Obligations.ChunkingDoesNotMatter : Prop :=
  ∀ (a d : List Byte) (s : State), appendFits (a ++ d) s = true → ∃ fs₁ st₁ fs₂ st₂ rest,
    observe [.rxAppend a, .rxDrain, .rxAppend d, .rxDrain] s =
      .next ([.none, .drain fs₁ st₁, .none, .drain fs₂ st₂],
        { s with rxbuf := rest, response := .drain fs₂ st₂ }) ∧
    observe [.rxAppend (a ++ d), .rxDrain] s =
      .next ([.none, .drain (fs₁ ++ fs₂) st₂], { s with rxbuf := rest, response := .drain (fs₁ ++ fs₂) st₂ })

/-- R134: the offsets below the stop of a scan without a frame stay rejected whatever arrives, and an implementation that
starts the next scan from that stop gives the same result, `consumed` included. -/
def Obligations.DeadPrefixMayBeSkipped : Prop :=
  ∀ (m : Config.MinAvail) (b d : Memory), (scan m b).status ≠ .frame →
    (∀ j, j < stopOffset m b → examine m ((b ++ d).drop j) = none) ∧
    scan m (b ++ d) = scanResuming m (stopOffset m b) (b ++ d)

/-- R135: behind a corrupted frame `x` the valid frame is found, with `consumed` covering both, exactly when every offset
of `x` is rejected within the buffer. -/
def Obligations.ResynchronizationCondition : Prop :=
  ∀ (m : Config.MinAvail) (x : Memory) (f : Frame), (f.header = 0xF0 ∨ f.header = 0xF1) →
    f.payload.length ≤ 255 → m.toNat ≤ f.toBytes.length →
    (scan m (x ++ f.toBytes) = .frame f (x.length + f.toBytes.length) ↔ rejectsAll m x f.toBytes)

/-- R136: a garbage prefix free of 0xF0 and 0xF1 never prevents extraction. -/
def Obligations.HeaderFreeNoiseIsTolerated : Prop :=
  ∀ (m : Config.MinAvail) (g tail : Memory) (f : Frame), (∀ b ∈ g, b ≠ 0xF0 ∧ b ≠ 0xF1) →
    (f.header = 0xF0 ∨ f.header = 0xF1) → f.payload.length ≤ 255 → m.toNat ≤ (f.toBytes ++ tail).length →
    scan m (g ++ (f.toBytes ++ tail)) = .frame f (g.length + f.toBytes.length)

/-- R175, R136: one stray header value directly before a frame takes the frame's type_id as its length, and until that
many bytes have come the scan is NEED_MORE, however complete the frame behind it. -/
def Obligations.StrayHeaderStallsTheScan : Prop :=
  ∀ (m : Config.MinAvail) (stray : Byte) (f : Frame) (tail : Memory), (stray = 0xF0 ∨ stray = 0xF1) →
    6 + f.payload.length + tail.length < 5 + f.typeId.toNat →
    scan m (stray :: (f.toBytes ++ tail)) = .needMore

/-- R174: the wait behind an incomplete candidate is bounded in bytes: with 260 bytes from its offset on, the scan has
passed it or returned a frame. -/
def Obligations.StallIsBoundedInBytes : Prop :=
  ∀ (m : Config.MinAvail) (b d : Memory), scan m b = .needMore → stopOffset m b + 260 ≤ (b ++ d).length →
    (scan m (b ++ d)).status = .frame ∨ stopOffset m b < stopOffset m (b ++ d)

/-- R138: where MIN_AVAIL 5 and 6 differ. Only on a buffer whose scan reaches an offset with exactly five bytes left; 6 is
then EXHAUSTED, and 5 is NEED_MORE or an empty-payload frame at the very end, which 6 returns once a byte more has
come. -/
def Obligations.MinAvailSettingsDifferOnlyAtTheEnd : Prop :=
  ∀ buf : Memory, scan .five buf ≠ scan .six buf →
    ∃ (x : Memory) (h k t l c : Byte), buf = x ++ [h, k, t, l, c] ∧ rejectsAll .six x [h, k, t, l, c] ∧
      (h = 0xF0 ∨ h = 0xF1) ∧ scan .six buf = .exhausted ∧
      ((l ≠ 0 ∧ scan .five buf = .needMore) ∨
       (l = 0 ∧ c = t ∧ scan .five buf = .frame ⟨h, k, t, []⟩ buf.length ∧
        ∀ b d, scan .six (buf ++ b :: d) = .frame ⟨h, k, t, []⟩ buf.length))

/-- R178, R93 (a): header and command are not protected. Any command, and either header value, put in place of a valid
frame's own still scans as a frame. -/
def Obligations.HeaderAndCommandAreUnprotected : Prop :=
  ∀ (m : Config.MinAvail) (f : Frame) (h k : Byte) (tail : Memory), (h = 0xF0 ∨ h = 0xF1) →
    f.payload.length ≤ 255 → m.toNat ≤ (f.toBytes ++ tail).length →
    scan m (h :: k :: (f.toBytes ++ tail).drop 2) =
      .frame { f with header := h, command := k } (5 + f.payload.length)

/-- R93 (e): `[h, kk, t, 00, t]` is a valid frame for every command and type_id, and a run of zeros after a header value
is taken for one. -/
def Obligations.ZeroLengthPatternIsAlwaysAFrame : Prop :=
  (∀ h k t : Byte, (h = 0xF0 ∨ h = 0xF1) → validFrame [h, k, t, 0x00, t] = true) ∧
  ∀ (m : Config.MinAvail) (h k t : Byte) (tail : Memory), (h = 0xF0 ∨ h = 0xF1) → m.toNat ≤ 5 + tail.length →
    scan m ([h, k, t, 0x00, t] ++ tail) = .frame ⟨h, k, t, []⟩ 5

/-- R155: at one offset S1 is tested before the header, S2 before completeness, S4 before the checksum. -/
def Obligations.TestsAreMadeInFixedOrder : Prop :=
  ∀ (m : Config.MinAvail) (w : List Byte),
    (w.length < m.toNat → examine m w = some .exhausted) ∧
    (∀ h k t l body, w = h :: k :: t :: l :: body → m.toNat ≤ w.length →
      (h ≠ 0xF0 → h ≠ 0xF1 → examine m w = none) ∧
      ((h = 0xF0 ∨ h = 0xF1) → w.length < 5 + l.toNat → examine m w = some .needMore) ∧
      ((h = 0xF0 ∨ h = 0xF1) → 5 + l.toNat ≤ w.length →
        (body[l.toNat]? = some (checksum t (body.take l.toNat)) →
          examine m w = some (.accept ⟨h, k, t, body.take l.toNat⟩)) ∧
        (body[l.toNat]? ≠ some (checksum t (body.take l.toNat)) → examine m w = none)))

/-! ### The whole machine -/

/-- R20: three things change RXBUF and nothing else does; no byte changes in place, enters in the middle or leaves from
the back; its length stays bounded by BUF_CAP. -/
def Obligations.OnlyThreeThingsChangeTheBuffer : Prop :=
  ∀ (i : Instr) (s t : State), exec i s = .next t →
    (s.rxbuf.wf s.params = true → t.rxbuf.wf t.params = true) ∧
    (t.rxbuf = s.rxbuf ∨
    (∃ data, i = .rxAppend data ∧ t.rxbuf = s.rxbuf ++ data) ∨
    (i = .rxScan ∧ ∃ f c, t.response = .scan (.frame f c) ∧ t.rxbuf = s.rxbuf.drop c) ∨
    (i = .rxDrain ∧ ∃ frames status, t.response = .drain frames status ∧
      t.rxbuf = s.rxbuf.drop (frames.map Prod.snd).sum) ∨
    (i = .reset ∧ t.rxbuf = []))

/-- R158, R150, R151: no operation faults, and the inputs the spec refuses are the only ones refused, each by its own
name. Which inputs these are is the spec's decision (D3, D9, D13; assumptions 5, 16). -/
def Obligations.OnlyTheListedInputsAreRefused : Prop :=
  ∀ (i : Instr) (s : State), (∀ r, exec i s ≠ .fault r) ∧ ∀ r, exec i s = .refused r ↔
    (∃ h k t p, i = .encFrame h k t p ∧ 255 < p.length ∧ r = .payloadTooLong p.length) ∨
    (∃ t p, i = .cksum t p ∧ 255 < p.length ∧ r = .payloadTooLong p.length) ∨
    (∃ data cap, i = .rxAppend data ∧ s.params.bufCap = some cap ∧ cap < s.rxbuf.length + data.length ∧
      r = .bufferFull (s.rxbuf.length + data.length) cap) ∨
    ∃ op, i = .reservedOp op ∧ r = .reservedOp op

/-- R120, R52, R157: what an RX operation or RESET does is a function of RXBUF and the build's parameters: earlier
responses and waiting requests, the model's own fields (assumptions 1, 2), do not matter, and there is no mode in which
it is not allowed. -/
def Obligations.RxDependsOnTheBufferAlone : Prop :=
  ∀ (i : Instr) (s t u : State), isTx i = false → exec i s = .next t → u.rxbuf = s.rxbuf → u.params = s.params →
    exec i u = .next { u with rxbuf := t.rxbuf, response := t.response }

/-- A step that goes on takes one request off the front and never writes the parameters. Its subject is the model's own:
the list of waiting requests (assumption 1), the parameters in State (assumption 3), the idle step (assumption 7) and that
RESET leaves the requests that wait (assumption 18); it is how the model keeps the order R50 gives and the constants
R29 names. -/
def Obligations.StepTakesOneRequestInOrder : Prop :=
  ∀ s t : State, step s = .next t → t.requests = s.requests.tail ∧ t.params = s.params

/-- Every step keeps the invariant: legal parameters (R6), RXBUF within BUF_CAP (R20, R33), and a response record of the
form R25, R26, R28 and R131 give. The parameters and the response stand in State by the model's choice
(assumptions 2, 3). -/
def Obligations.StepKeepsTheInvariant : Prop :=
  ∀ s t : State, s.Inv → step s = .next t → t.Inv

/-- The reset state meets the invariant; it is RXBUF empty (R32), with the model's own fields at their named values
(assumptions 4, 5, 6). -/
def Obligations.ResetMeetsTheInvariant : Prop :=
  State.reset.Inv ∧ State.reset = { rxbuf := [], requests := [], response := .none, params := {} }

/-- R14: a run completes. Operations in range (`operands_in_range`), none a reserved code (R158), whose appends fit
(`fits`) give one result each, from every state. -/
def Obligations.RunsInRangeComplete : Prop :=
  ∀ (is : List Instr) (s : State), (∀ i ∈ is, operandsInRange i = true ∧ ∀ op, i ≠ .reservedOp op) →
    fits is s = true →
    ∃ results t, observe is s = .next (results, t) ∧ results.length = is.length

/-- A run of operations (R14) is the machine's steps over their request records (R50): same final state. The list of
requests and how they are handed over are the model's choice (assumptions 1, 19). -/
def Obligations.RunIsStepsOverRequests : Prop :=
  ∀ (is : List Instr) (s t : State) (results : List Response), (∀ i ∈ is, i.wellFormed = true) →
    observe is s = .next (results, t) →
    core.run is.length { s with requests := is.map encode ++ s.requests } = .next t

/-- R173: the frames of the start-up and close sequences, for every rate of the table; the baud frame carries the
type_id the source does not give, whatever it is (assumption 15). The header 0xF1 of the session frames is the spec's
inference (assumption 11). -/
def Obligations.StartUpFrames : Prop :=
  ∀ (s : State) (rate : Nat) (v : Byte), (rate, v) ∈
      [(9600, (0x01 : Byte)), (19200, 0x02), (38400, 0x03), (57600, 0x04), (115200, 0x05), (250000, 0x05)] →
    ∃ final,
      observe (startUpSequence rate ++ closeSequence) s =
        .next ([.bytes [0xF1, 0xC1, 0x00, 0x01, 0x01, 0x02],
          .bytes [0xF1, 0xB0, Config.baudTypeId, 0x01, v, Config.baudTypeId + 1 + v],
          .bytes [0xF1, 0xA1, 0xDE, 0x01, 0x00, 0xDF],
          .bytes [0xF1, 0xA1, 0xDF, 0x01, 0x00, 0xE0],
          .bytes [0xF1, 0xA1, 0xE0, 0x01, 0x00, 0xE1],
          .bytes [0xF1, 0xA1, 0xFF, 0x01, 0x00, 0x00],
          .bytes [0xF1, 0xC1, 0x00, 0x01, 0x00, 0x01]], final) ∧
      final.rxbuf = s.rxbuf
end

