-- ==== Sys2Proof/Laws/State.lean ====
section
/-! SUPPORT. One lemma per field per update of State, and what the shared accesses to the buffer do. -/

namespace Sys2Proof.Machine

variable (s : State) (m : Memory) (r : Response)

@[simp] theorem State.setRxbuf_rxbuf : (s.setRxbuf m).rxbuf = m := rfl
@[simp] theorem State.setRxbuf_requests : (s.setRxbuf m).requests = s.requests := rfl
@[simp] theorem State.setRxbuf_response : (s.setRxbuf m).response = s.response := rfl
@[simp] theorem State.setRxbuf_params : (s.setRxbuf m).params = s.params := rfl
@[simp] theorem State.respond_rxbuf : (s.respond r).rxbuf = s.rxbuf := rfl
@[simp] theorem State.respond_requests : (s.respond r).requests = s.requests := rfl
@[simp] theorem State.respond_response : (s.respond r).response = r := rfl
@[simp] theorem State.respond_params : (s.respond r).params = s.params := rfl

@[simp] theorem State.withFetchWord_rxbuf (n w : Nat) : (s.withFetchWord n w).rxbuf = s.rxbuf := rfl
@[simp] theorem State.withFetchWord_response (n w : Nat) : (s.withFetchWord n w).response = s.response := rfl
@[simp] theorem State.withFetchWord_params (n w : Nat) : (s.withFetchWord n w).params = s.params := rfl
theorem State.withFetchWord_requests (n w : Nat) :
    (s.withFetchWord n w).requests = Request.ofTableWord n w :: s.requests := rfl

theorem Memory.append_eq (m d : Memory) : m.append d = m ++ d := rfl
theorem Memory.dropFront_eq (m : Memory) (c : Nat) : m.dropFront c = m.drop c := rfl
theorem Memory.byteAt_eq (m : Memory) (k : Nat) : m.byteAt k = m[k]? := rfl
theorem Memory.read_eq (m : Memory) (a n : Nat) : m.read a n = (m.drop a).take n := rfl

theorem Memory.wf_iff (p : Config.Params) (m : Memory) :
    m.wf p = true ↔ ∀ c, p.bufCap = some c → m.length ≤ c := by
  unfold Memory.wf
  cases h : p.bufCap <;> simp

/-- A buffer no longer than one in form is in form. -/
theorem Memory.wf_of_length_le {p : Config.Params} {m m' : Memory} (h : m'.length ≤ m.length)
    (hm : m.wf p = true) : m'.wf p = true := by
  rw [Memory.wf_iff] at hm ⊢
  exact fun c hc => h.trans (hm c hc)

theorem Memory.wf_nil (p : Config.Params) : Memory.wf p [] = true := by simp [Memory.wf_iff]

theorem Memory.wf_dropFront {p : Config.Params} {m : Memory} (c : Nat) (hm : m.wf p = true) :
    (m.dropFront c).wf p = true :=
  Memory.wf_of_length_le (by simp [Memory.dropFront_eq]) hm

/-- The memory of the reset state has its form. -/
theorem Memory.wf_reset : State.reset.rxbuf.wf State.reset.params = true := by decide

end Sys2Proof.Machine
end

