-- ==== Sys2Proof/Laws/Checksum.lean ====
section
/-! SUPPORT. Laws of the checksum and of the frame layout. -/

namespace Sys2Proof.Machine

theorem byteSum_nil : byteSum [] = 0 := rfl
theorem byteSum_cons (b : Byte) (s : List Byte) : byteSum (b :: s) = b.toNat + byteSum s := by
  simp [byteSum]
theorem byteSum_append (s t : List Byte) : byteSum (s ++ t) = byteSum s + byteSum t := by
  simp [byteSum]

/-- Each byte is at most 255, so a sum is at most 255 times the count (R92). -/
theorem byteSum_le (s : List Byte) : byteSum s ≤ 255 * s.length := by
  induction s with
  | nil => simp [byteSum_nil]
  | cons b s ih =>
    have hb := b.isLt
    simp only [byteSum_cons, List.length_cons]
    omega

theorem checksum_toNat (t : Byte) (p : List Byte) :
    (checksum t p).toNat = (t.toNat + p.length + byteSum p) % 256 := by
  simp [checksum, BitVec.toNat_ofNat]

theorem frameBytes_length (h k t : Byte) (p : List Byte) : (frameBytes h k t p).length = 5 + p.length := by
  simp [frameBytes]
  omega

theorem frameBytes_eq (h k t : Byte) (p : List Byte) :
    frameBytes h k t p = h :: k :: t :: BitVec.ofNat 8 p.length :: (p ++ [checksum t p]) := rfl

theorem payloadFits_iff (p : List Byte) : payloadFits p = true ↔ p.length ≤ 255 := decide_eq_true_iff

theorem ofNat_length_toNat {p : List Byte} (h : p.length ≤ 255) : (BitVec.ofNat 8 p.length).toNat = p.length := by
  simp [BitVec.toNat_ofNat]
  omega

theorem byteSum_perm {p q : List Byte} (h : p.Perm q) : byteSum p = byteSum q := (h.map _).sum_eq

/-- Two checksums agree when the unreduced sums agree modulo 256. -/
theorem checksum_congr {t u : Byte} {p q : List Byte}
    (h : (t.toNat + p.length + byteSum p) % 256 = (u.toNat + q.length + byteSum q) % 256) :
    checksum t p = checksum u q := by
  apply BitVec.eq_of_toNat_eq
  rw [checksum_toNat, checksum_toNat, h]

/-- The header test names the two values (R61). -/
theorem isHeader_iff (b : Byte) : isHeader b = true ↔ b = 0xF0 ∨ b = 0xF1 := by
  simp [isHeader, Config.hdrInput, Config.hdrOutput]

/-- `lowByte` is the floor modulus (R103). -/
theorem lowByte_toNat (v : Int) : ((lowByte v).toNat : Int) = v % 256 := by
  have : (lowByte v).toNat = (v % 256).toNat := by
    simp [lowByte]
    omega
  rw [this]
  omega

/-- What `frameBytes` builds has the length its byte 3 declares and its checksum last (R94). -/
theorem wellFramed_frameBytes (h k t : Byte) {p : List Byte} (hp : p.length ≤ 255) :
    wellFramed (frameBytes h k t p) = true := by
  have hlen := ofNat_length_toNat hp
  have e2 : byteOr0 (frameBytes h k t p) 2 = t := rfl
  have e3 : byteOr0 (frameBytes h k t p) 3 = BitVec.ofNat 8 p.length := rfl
  have e4 : byteOr0 (frameBytes h k t p) (4 + p.length) = checksum t p := by
    rw [Nat.add_comm]
    simp [byteOr0, Memory.byteAt, frameBytes_eq]
  have er : Memory.read (frameBytes h k t p) 4 p.length = p := by simp [Memory.read, frameBytes_eq]
  simp [wellFramed, e2, e3, hlen, frameBytes_length, e4, er]

end Sys2Proof.Machine
end

