-- ==== Sys2Proof/Laws/Scan.lean ====
section
/-! SUPPORT. What one turn of the scan decides (`examine`), how the walk over offsets is assembled from it, and how both
behave when bytes are appended. Proofs about the scan cite these and do not unfold the definitions. -/

namespace Sys2Proof.Machine

variable {m : Config.MinAvail}

theorem minAvail_ge (m : Config.MinAvail) : 5 ≤ m.toNat := by cases m <;> decide
theorem minAvail_le (m : Config.MinAvail) : m.toNat ≤ 6 := by cases m <;> decide

/-! ### One turn -/

/-- S1: too few bytes (R121). -/
theorem examine_short {w : List Byte} (h : w.length < m.toNat) : examine m w = some .exhausted := by
  simp [examine, h]

/-- S2: not a header value (R122). -/
theorem examine_notHeader {b : Byte} {w : List Byte} (hn : m.toNat ≤ (b :: w).length) (hb : isHeader b = false) :
    examine m (b :: w) = none := by
  have h5 := minAvail_ge m
  have hn' : ¬ (b :: w).length < m.toNat := by omega
  match w, hn with
  | k :: t :: l :: body, _ => simp only [examine, if_neg hn', hb]; rfl
  | [], hn => simp at hn; omega
  | [_], hn => simp at hn; omega
  | [_, _], hn => simp at hn; omega

/-- S4 and S5 at a header value with enough bytes (R124, R125). -/
theorem examine_header {h k t l : Byte} {body : List Byte} (hn : m.toNat ≤ 4 + body.length)
    (hh : isHeader h = true) :
    examine m (h :: k :: t :: l :: body) =
      if body.length < l.toNat + 1 then some .needMore
      else if body[l.toNat]? = some (checksum t (body.take l.toNat)) then
        some (.accept ⟨h, k, t, body.take l.toNat⟩)
      else none := by
  have h1 : ¬ (h :: k :: t :: l :: body).length < m.toNat := by simp; omega
  have h2 : ((h :: k :: t :: l :: body).length < Config.frameOverhead + l.toNat) = (body.length < l.toNat + 1) := by
    simp [Config.frameOverhead]
    omega
  simp only [examine, if_neg h1, hh, h2]
  rfl

/-- With enough bytes there are at least the four that S3 reads, and one more (R123). -/
theorem four_of_enough {w : List Byte} (hn : m.toNat ≤ w.length) :
    ∃ h k t l body, w = h :: k :: t :: l :: body ∧ m.toNat ≤ 4 + body.length := by
  have h5 := minAvail_ge m
  match w, hn with
  | h :: k :: t :: l :: body, hn => exact ⟨h, k, t, l, body, rfl, by simp at hn; omega⟩
  | [], hn => simp at hn; omega
  | [_], hn => simp at hn; omega
  | [_, _], hn => simp at hn; omega
  | [_, _, _], hn => simp at hn; omega

theorem examine_exhausted_iff {w : List Byte} : examine m w = some .exhausted ↔ w.length < m.toNat := by
  constructor
  · intro h
    by_contra hn
    obtain ⟨h', k, t, l, body, rfl, hb⟩ := four_of_enough (m := m) (by omega : m.toNat ≤ w.length)
    cases hh : isHeader h' with
    | false => rw [examine_notHeader (by omega) hh] at h; cases h
    | true => rw [examine_header hb hh] at h; split_ifs at h <;> simp_all
  · exact examine_short

theorem examine_needMore_iff {w : List Byte} : examine m w = some .needMore ↔
    ∃ h k t l body, w = h :: k :: t :: l :: body ∧ m.toNat ≤ w.length ∧ isHeader h = true ∧
      w.length < 5 + l.toNat := by
  constructor
  · intro he
    have hn : m.toNat ≤ w.length := by
      by_contra hlt
      rw [examine_short (by omega)] at he
      cases he
    obtain ⟨h, k, t, l, body, rfl, hb⟩ := four_of_enough hn
    cases hh : isHeader h with
    | false => rw [examine_notHeader hn hh] at he; cases he
    | true =>
      rw [examine_header hb hh] at he
      split_ifs at he with h1 h2
      · exact ⟨h, k, t, l, body, rfl, hn, hh, by simp; omega⟩
      · simp at he
  · rintro ⟨h, k, t, l, body, rfl, hn, hh, hl⟩
    simp only [List.length_cons] at hn hl
    rw [examine_header (by omega) hh, if_pos (by omega)]

/-- What a candidate that is accepted looks like: the bytes from the offset are the frame's own, and then any
others (R125, R94). -/
theorem examine_accept_iff {w : List Byte} {f : Frame} : examine m w = some (.accept f) ↔
    m.toNat ≤ w.length ∧ f.scanned = true ∧ ∃ tail, w = f.toBytes ++ tail := by
  constructor
  · intro he
    have hn : m.toNat ≤ w.length := by
      by_contra hlt
      rw [examine_short (by omega)] at he
      cases he
    obtain ⟨h, k, t, l, body, rfl, hb⟩ := four_of_enough hn
    cases hh : isHeader h with
    | false => rw [examine_notHeader hn hh] at he; cases he
    | true =>
      rw [examine_header hb hh] at he
      split_ifs at he with h1 h2
      · simp at he
      obtain rfl : f = ⟨h, k, t, body.take l.toNat⟩ := by simpa using he.symm
      have hl := l.isLt
      have hlen : (body.take l.toNat).length = l.toNat := by simp; omega
      refine ⟨hn, by simp [Frame.scanned, hh, payloadFits_iff]; omega, body.drop (l.toNat + 1), ?_⟩
      have hbody : body = body.take l.toNat ++ checksum t (body.take l.toNat) :: body.drop (l.toNat + 1) := by
        obtain ⟨hlt, hget⟩ := List.getElem?_eq_some_iff.mp h2
        rw [← hget, ← List.drop_eq_getElem_cons hlt, List.take_append_drop]
      simp only [Frame.toBytes, frameBytes_eq, hlen, BitVec.ofNat_toNat, BitVec.setWidth_eq, List.cons_append,
        List.append_assoc, List.nil_append]
      rw [← hbody]
  · rintro ⟨hn, hf, tail, rfl⟩
    obtain ⟨h, k, t, p⟩ := f
    simp only [Frame.scanned, Bool.and_eq_true, payloadFits_iff] at hf
    obtain ⟨hh, hp⟩ := hf
    have hl := ofNat_length_toNat hp
    simp only [Frame.toBytes, frameBytes_eq, List.cons_append, List.append_assoc, List.nil_append] at hn ⊢
    simp only [List.length_cons] at hn
    rw [examine_header (by omega) hh, hl, if_neg (by simp), if_pos (by simp)]
    simp

/-- A rejected offset: enough bytes, and either no header value or a complete candidate whose checksum byte does
not match (R122, R126). -/
theorem examine_none_iff {w : List Byte} : examine m w = none ↔
    ∃ h k t l body, w = h :: k :: t :: l :: body ∧ m.toNat ≤ w.length ∧
      (isHeader h = false ∨
        (5 + l.toNat ≤ w.length ∧ body[l.toNat]? ≠ some (checksum t (body.take l.toNat)))) := by
  constructor
  · intro he
    have hn : m.toNat ≤ w.length := by
      by_contra hlt
      rw [examine_short (by omega)] at he
      cases he
    obtain ⟨h, k, t, l, body, rfl, hb⟩ := four_of_enough hn
    refine ⟨h, k, t, l, body, rfl, hn, ?_⟩
    cases hh : isHeader h with
    | false => exact .inl rfl
    | true =>
      rw [examine_header hb hh] at he
      split_ifs at he with h1 h2
      exact .inr ⟨by simp; omega, h2⟩
  · rintro ⟨h, k, t, l, body, rfl, hn, hc⟩
    cases hh : isHeader h with
    | false => exact examine_notHeader hn hh
    | true =>
      obtain hf | ⟨hl, hck⟩ := hc
      · simp [hh] at hf
      · simp only [List.length_cons] at hn hl
        rw [examine_header (by omega) hh, if_neg (by omega), if_neg hck]

/-! ### Appending bytes (R133) -/

/-- A rejection is for a reason no later byte can undo. -/
theorem examine_none_append {w : List Byte} (d : List Byte) (he : examine m w = none) :
    examine m (w ++ d) = none := by
  obtain ⟨h, k, t, l, body, rfl, hn, hc⟩ := examine_none_iff.mp he
  refine examine_none_iff.mpr ⟨h, k, t, l, body ++ d, rfl, by simp at hn ⊢; omega, hc.imp id ?_⟩
  rintro ⟨hl, hck⟩
  simp only [List.length_cons] at hl
  refine ⟨by simp; omega, ?_⟩
  rwa [List.getElem?_append_left (by omega), List.take_append_of_le_length (by omega)]

/-- An accepted candidate lies wholly in the bytes there were. -/
theorem examine_accept_append {w : List Byte} {f : Frame} (d : List Byte)
    (he : examine m w = some (.accept f)) : examine m (w ++ d) = some (.accept f) := by
  obtain ⟨hn, hf, tail, rfl⟩ := examine_accept_iff.mp he
  exact examine_accept_iff.mpr ⟨by simp at hn ⊢; omega, hf, tail ++ d, by simp⟩

/-! ### The walk -/

theorem walk_of_some {w : List Byte} {stop : Stop} (i : Nat) (h : examine m w = some stop) :
    walk m i w = (i, stop) := by
  cases w with
  | nil =>
    rw [examine_short (by have := minAvail_ge m; simp; omega)] at h
    obtain rfl := Option.some.inj h
    rfl
  | cons b w => simp only [walk, h]

theorem walk_of_none {b : Byte} {w : List Byte} (i : Nat) (h : examine m (b :: w) = none) :
    walk m i (b :: w) = walk m (i + 1) w := by simp only [walk, h]

/-- What is walked is a run of rejected offsets and then the offset that decides (R127). -/
theorem walk_split (m : Config.MinAvail) (i : Nat) (w : List Byte) :
    ∃ x v, w = x ++ v ∧ rejectsAll m x v ∧ (walk m i w).1 = i + x.length ∧
      examine m v = some (walk m i w).2 := by
  induction w generalizing i with
  | nil => exact ⟨[], [], rfl, by simp [rejectsAll], rfl,
      examine_short (by have := minAvail_ge m; simp; omega)⟩
  | cons b w ih =>
    cases he : examine m (b :: w) with
    | some stop =>
      rw [walk_of_some i he]
      exact ⟨[], b :: w, rfl, by simp [rejectsAll], rfl, he⟩
    | none =>
      rw [walk_of_none i he]
      obtain ⟨x, v, rfl, hr, hi, hv⟩ := ih (i + 1)
      refine ⟨b :: x, v, rfl, ?_, by simp; omega, hv⟩
      intro j hj
      cases j with
      | zero => exact he
      | succ j => exact hr j (by simpa using hj)

/-- Rejected offsets are walked over one by one. -/
theorem walk_rejects {x v : List Byte} (i : Nat) (h : rejectsAll m x v) :
    walk m i (x ++ v) = walk m (i + x.length) v := by
  induction x generalizing i with
  | nil => simp
  | cons b x ih =>
    have h0 : examine m (b :: (x ++ v)) = none := h 0 (by simp)
    rw [List.cons_append, walk_of_none i h0, ih (i + 1) (fun j hj => h (j + 1) (by simpa using hj))]
    congr 1
    simp
    omega

/-- The walk's result does not depend on how its offset is counted. -/
theorem walk_shift (m : Config.MinAvail) (i : Nat) (w : List Byte) :
    walk m i w = (i + (walk m 0 w).1, (walk m 0 w).2) := by
  obtain ⟨x, v, rfl, hr, h1, h2⟩ := walk_split m 0 w
  rw [walk_rejects i hr, walk_rejects 0 hr, walk_of_some _ h2, walk_of_some _ h2]
  simp

theorem rejectsAll_append {x v : List Byte} (d : List Byte) (h : rejectsAll m x v) : rejectsAll m x (v ++ d) := by
  intro j hj
  have := examine_none_append d (h j hj)
  rwa [← List.drop_append_of_le_length (by simp; omega), List.append_assoc] at this

/-! ### The scan -/

/-- A scan over rejected offsets ends as the candidate behind them decides. -/
theorem scan_of_examine {x v : List Byte} {stop : Stop} (hr : rejectsAll m x v) (he : examine m v = some stop) :
    scan m (x ++ v) = stop.result x.length := by
  rw [scan, walk_rejects 0 hr, walk_of_some _ he]
  simp

/-- Every scan is of that form (R120, R127): say it once, cite it everywhere. -/
theorem scan_split (m : Config.MinAvail) (buf : List Byte) :
    ∃ x v stop, buf = x ++ v ∧ rejectsAll m x v ∧ examine m v = some stop ∧ scan m buf = stop.result x.length := by
  obtain ⟨x, v, rfl, hr, -, h2⟩ := walk_split m 0 buf
  exact ⟨x, v, _, rfl, hr, h2, scan_of_examine hr h2⟩

/-- What a scan that returns a frame found (R125, R127). -/
theorem scan_frame {buf : List Byte} {f : Frame} {c : Nat} (h : scan m buf = .frame f c) :
    ∃ x tail, buf = x ++ f.toBytes ++ tail ∧ rejectsAll m x (f.toBytes ++ tail) ∧
      m.toNat ≤ (f.toBytes ++ tail).length ∧ f.scanned = true ∧ c = x.length + 5 + f.payload.length := by
  obtain ⟨x, v, stop, rfl, hr, he, hs⟩ := scan_split m buf
  rw [hs] at h
  cases stop with
  | exhausted => cases h
  | needMore => cases h
  | accept g =>
    simp only [Stop.result, ScanResult.frame.injEq, Config.frameOverhead] at h
    obtain ⟨rfl, rfl⟩ := h
    obtain ⟨hn, hf, tail, rfl⟩ := examine_accept_iff.mp he
    exact ⟨x, tail, by simp, hr, hn, hf, rfl⟩

/-- And conversely. -/
theorem scan_frame_of {x tail : List Byte} {f : Frame} (hr : rejectsAll m x (f.toBytes ++ tail))
    (hn : m.toNat ≤ (f.toBytes ++ tail).length) (hf : f.scanned = true) :
    scan m (x ++ (f.toBytes ++ tail)) = .frame f (x.length + 5 + f.payload.length) :=
  scan_of_examine hr (examine_accept_iff.mpr ⟨hn, hf, tail, rfl⟩)

/-- The scan of a buffer whose first offset is rejected is the scan of the rest, one byte further on. -/
theorem scan_cons_of_reject {b : Byte} {w : List Byte} (h : examine m (b :: w) = none) :
    scan m (b :: w) = (scan m w).shift 1 := by
  have e := walk_shift m 1 w
  rw [scan, walk_of_none 0 h, scan]
  simp only [Nat.zero_add, e]
  cases (walk m 0 w).2 <;> simp [Stop.result, ScanResult.shift]
  omega

/-- Where a scan over rejected offsets stops. -/
theorem stopOffset_of_examine {x v : List Byte} {stop : Stop} (hr : rejectsAll m x v)
    (he : examine m v = some stop) : stopOffset m (x ++ v) = x.length := by
  rw [stopOffset, walk_rejects 0 hr, walk_of_some _ he]
  simp

theorem Frame.toBytes_length (f : Frame) : f.toBytes.length = 5 + f.payload.length := frameBytes_length ..

/-- `5 <= consumed <= n`, so the truncation is always possible (R48, R125). -/
theorem scan_frame_consumed {buf : List Byte} {f : Frame} {c : Nat} (h : scan m buf = .frame f c) :
    5 + f.payload.length ≤ c ∧ c ≤ buf.length := by
  obtain ⟨x, tail, rfl, -, -, -, rfl⟩ := scan_frame h
  simp [Frame.toBytes_length]
  omega

end Sys2Proof.Machine
end

