-- ==== Sys2Proof/Laws/Drain.lean ====
section
/-! SUPPORT. The drain loop (spec 42_scanner.md R131): its bound on turns is never what ends it. -/

namespace Sys2Proof.Machine

variable {m : Config.MinAvail}

/-- More turns than bytes change nothing: a frame removes at least 5 bytes. -/
theorem drainLoop_eq_drain (m : Config.MinAvail) (turns : Nat) (buf : Memory) (h : buf.length ≤ turns) :
    drainLoop m turns buf = drain m buf := by
  suffices ∀ n t buf, buf.length ≤ n → buf.length ≤ t → drainLoop m n buf = drainLoop m t buf from
    this turns buf.length buf h le_rfl
  intro n
  induction n with
  | zero =>
    intro t buf hn _
    obtain rfl := List.length_eq_zero_iff.mp (Nat.le_zero.mp hn)
    cases t <;> rfl
  | succ n ih =>
    intro t buf hn ht
    cases t with
    | zero =>
      obtain rfl := List.length_eq_zero_iff.mp (Nat.le_zero.mp ht)
      rfl
    | succ t =>
      simp only [drainLoop]
      cases hs : scan m buf with
      | exhausted => rfl
      | needMore => rfl
      | frame f c =>
        have hc := scan_frame_consumed hs
        have hd : (buf.dropFront c).length ≤ n ∧ (buf.dropFront c).length ≤ t := by
          simp only [Memory.dropFront_eq, List.length_drop]
          omega
        simp only [ih t (buf.dropFront c) hd.1 hd.2]

theorem drain_exhausted {buf : Memory} (h : scan m buf = .exhausted) : drain m buf = ⟨[], .exhausted, buf⟩ := by
  rw [← drainLoop_eq_drain m (buf.length + 1) buf (by omega)]
  simp [drainLoop, h]

theorem drain_needMore {buf : Memory} (h : scan m buf = .needMore) : drain m buf = ⟨[], .needMore, buf⟩ := by
  rw [← drainLoop_eq_drain m (buf.length + 1) buf (by omega)]
  simp [drainLoop, h]

theorem drain_frame {buf : Memory} {f : Frame} {c : Nat} (h : scan m buf = .frame f c) :
    drain m buf = ⟨(f, c) :: (drain m (buf.dropFront c)).frames, (drain m (buf.dropFront c)).status,
      (drain m (buf.dropFront c)).rest⟩ := by
  rw [← drainLoop_eq_drain m (buf.length + 1) buf (by omega)]
  have hd : (buf.dropFront c).length ≤ buf.length := by
    simp [Memory.dropFront_eq]
  simp only [drainLoop, h, drainLoop_eq_drain m buf.length (buf.dropFront c) hd]

/-- Induction along a drain: over the buffers its scans see. -/
theorem drain_induction (m : Config.MinAvail) {P : Memory → Prop}
    (exhausted : ∀ buf : Memory, scan m buf = .exhausted → P buf)
    (needMore : ∀ buf : Memory, scan m buf = .needMore → P buf)
    (frame : ∀ (buf : Memory) f c, scan m buf = .frame f c → P (buf.dropFront c) → P buf) (buf : Memory) : P buf := by
  suffices ∀ n (buf : Memory), buf.length ≤ n → P buf from this buf.length buf le_rfl
  intro n
  induction n with
  | zero =>
    intro buf hn
    obtain rfl := List.length_eq_zero_iff.mp (Nat.le_zero.mp hn)
    exact exhausted _ (scan_of_examine (x := []) (v := []) (by simp [rejectsAll])
      (examine_short (by have := minAvail_ge m; simp; omega)))
  | succ n ih =>
    intro buf hn
    cases hs : scan m buf with
    | exhausted => exact exhausted buf hs
    | needMore => exact needMore buf hs
    | frame f c =>
      refine frame buf f c hs (ih _ ?_)
      have hc := scan_frame_consumed hs
      simp only [Memory.dropFront_eq, List.length_drop]
      omega

/-- What a drain leaves is a tail of the buffer: no byte is changed, inserted or removed from the back (R20). -/
theorem drain_rest_suffix (m : Config.MinAvail) (buf : Memory) : ∃ k, (drain m buf).rest = buf.dropFront k := by
  induction buf using drain_induction m with
  | exhausted buf h => exact ⟨0, by rw [drain_exhausted h]; rfl⟩
  | needMore buf h => exact ⟨0, by rw [drain_needMore h]; rfl⟩
  | frame buf f c h ih =>
    obtain ⟨k, hk⟩ := ih
    exact ⟨c + k, by rw [drain_frame h, hk]; simp [Memory.dropFront_eq, List.drop_drop]⟩

end Sys2Proof.Machine
end

