-- ==== Sys2Proof/Laws/Exec.lean ====
section
/-! SUPPORT. What `exec` and `step` can do, said once: which operations answer a next state and which state that is.
Proofs about steps cite these and do not unfold the dispatch again. -/

namespace Sys2Proof.Machine

/-- The effect of an operation on RXBUF when it is served (R20: three things change it and nothing else does). -/
def bufferEffect (i : Instr) (s : State) : Memory :=
  match i with
  | .rxAppend data => s.rxbuf.append data
  | .rxScan => s.rxbuf.dropFront (scan s.params.minAvail s.rxbuf).consumed
  | .rxDrain => (drain s.params.minAvail s.rxbuf).rest
  | .reset => []
  | .encFrame _ _ _ _ | .encGet _ | .encSetf _ _ | .encSetb _ _ | .encSession _ | .cksum _ _ | .reservedOp _ => s.rxbuf

/-- The response record of an operation when it is served. -/
def responseOf (i : Instr) (s : State) : Response :=
  match i with
  | .encFrame h k t p => .bytes (frameBytes h k t p)
  | .encGet t => .bytes (frameBytes Config.hdrOutput Config.cmdGet t getPayload)
  | .encSetf t f => .bytes (frameBytes Config.hdrOutput Config.cmdSet t (floatPayload f))
  | .encSetb t v => .bytes (frameBytes Config.hdrOutput Config.cmdSet t (bytePayload v))
  | .encSession o => .bytes (frameBytes Config.hdrOutput Config.cmdSession 0 (sessionPayload o))
  | .cksum t p => .checksum (checksum t p)
  | .rxScan => .scan (scan s.params.minAvail s.rxbuf)
  | .rxDrain => .drain (drain s.params.minAvail s.rxbuf).frames (drain s.params.minAvail s.rxbuf).status
  | .rxAppend _ | .reset | .reservedOp _ => .none

/-- When an operation is served (R158 lists the inputs that are not). -/
structure Served (i : Instr) (s : State) : Prop where
  inRange : operandsInRange i = true
  assigned : ∀ op, i ≠ .reservedOp op
  appends : ∀ d, i = .rxAppend d → appendFits d s = true

/-- `exec` in one line: a served operation writes RXBUF and the response record and nothing else. -/
theorem exec_served {i : Instr} {s : State} (h : Served i s) :
    exec i s = .next ((s.setRxbuf (bufferEffect i s)).respond (responseOf i s)) := by
  obtain ⟨hr, ha, hf⟩ := h
  cases i with
  | encFrame h k t p => simp only [operandsInRange] at hr; simp only [exec, execEncFrame, if_pos hr]; rfl
  | cksum t p => simp only [operandsInRange] at hr; simp only [exec, execCksum, if_pos hr]; rfl
  | reservedOp op => exact absurd rfl (ha op)
  | rxAppend d =>
    have hf := hf d rfl
    simp only [appendFits, Memory.wf_iff, Memory.append_eq, List.length_append] at hf
    simp only [exec, execRxAppend]
    cases hc : s.params.bufCap with
    | none => rfl
    | some c => simp only [if_neg (by have := hf c hc; omega : ¬ s.rxbuf.length + d.length > c)]; rfl
  | rxScan =>
    simp only [exec, execRxScan, bufferEffect, responseOf]
    cases hs : scan s.params.minAvail s.rxbuf <;> rfl
  | encGet t => rfl
  | encSetf t f => rfl
  | encSetb t v => rfl
  | encSession o => rfl
  | rxDrain => rfl
  | reset => rfl

/-- An operation that is not served is refused by name (R158), and none faults (R150, R151). -/
theorem exec_not_served {i : Instr} {s : State} (h : ¬ Served i s) :
    (∃ h k t p, i = .encFrame h k t p ∧ 255 < p.length ∧ exec i s = .refused (.payloadTooLong p.length)) ∨
    (∃ t p, i = .cksum t p ∧ 255 < p.length ∧ exec i s = .refused (.payloadTooLong p.length)) ∨
    (∃ d c, i = .rxAppend d ∧ s.params.bufCap = some c ∧ c < s.rxbuf.length + d.length ∧
      exec i s = .refused (.bufferFull (s.rxbuf.length + d.length) c)) ∨
    (∃ op, i = .reservedOp op ∧ exec i s = .refused (.reservedOp op)) := by
  cases i with
  | encFrame h k t p =>
    have hp : ¬ payloadFits p = true := fun hp => h ⟨hp, by simp, by simp⟩
    refine .inl ⟨_, _, _, _, rfl, by rw [payloadFits_iff] at hp; omega, ?_⟩
    simp only [exec, execEncFrame, if_neg hp]
  | cksum t p =>
    have hp : ¬ payloadFits p = true := fun hp => h ⟨hp, by simp, by simp⟩
    refine .inr (.inl ⟨_, _, rfl, by rw [payloadFits_iff] at hp; omega, ?_⟩)
    simp only [exec, execCksum, if_neg hp]
  | rxAppend d =>
    have hf : ¬ appendFits d s = true := fun hf => h ⟨rfl, by simp, fun d' hd => by cases hd; exact hf⟩
    simp only [appendFits, Memory.wf_iff, Memory.append_eq, List.length_append, not_forall, not_le] at hf
    obtain ⟨c, hc, hlt⟩ := hf
    refine .inr (.inr (.inl ⟨d, c, rfl, hc, hlt, ?_⟩))
    simp only [exec, execRxAppend, hc, if_pos hlt]
  | reservedOp op => exact .inr (.inr (.inr ⟨op, rfl, rfl⟩))
  | encGet t => exact absurd ⟨rfl, by simp, by simp⟩ h
  | encSetf t f => exact absurd ⟨rfl, by simp, by simp⟩ h
  | encSetb t v => exact absurd ⟨rfl, by simp, by simp⟩ h
  | encSession o => exact absurd ⟨rfl, by simp, by simp⟩ h
  | rxScan => exact absurd ⟨rfl, by simp, by simp⟩ h
  | rxDrain => exact absurd ⟨rfl, by simp, by simp⟩ h
  | reset => exact absurd ⟨rfl, by simp, by simp⟩ h

/-- In the range the original software takes (R14), ENC_SETB's payload byte is the operand itself. -/
theorem lowByte_of_original {typeId : Byte} {bval : Int} (h : operandsInRangeOriginal (.encSetb typeId bval) = true) :
    ((lowByte bval).toNat : Int) = bval := by
  simp only [operandsInRangeOriginal, operandsInRange, Bool.true_and, decide_eq_true_eq] at h
  simp only [lowByte, BitVec.toNat_ofNat]
  omega

/-- What holds for the original software is asked of fewer operands. -/
theorem operandsInRange_of_original {i : Instr} (h : operandsInRangeOriginal i = true) : operandsInRange i = true :=
  (Bool.and_eq_true_iff.mp h).1

/-- Inversion: a next state comes from a served operation, and is the one `exec_served` gives. -/
theorem exec_next {i : Instr} {s t : State} (h : exec i s = .next t) :
    Served i s ∧ t = (s.setRxbuf (bufferEffect i s)).respond (responseOf i s) := by
  by_cases hs : Served i s
  · rw [exec_served hs] at h
    exact ⟨hs, by injection h with h; exact h.symm⟩
  · rcases exec_not_served hs with ⟨_, _, _, _, _, _, he⟩ | ⟨_, _, _, _, he⟩ | ⟨_, _, _, _, _, he⟩ | ⟨_, _, he⟩ <;>
      rw [he] at h <;> cases h

/-! ### One step -/

theorem step_idle {s : State} (h : s.requests = []) : step s = .next s := by simp only [step, h]

theorem step_serves {s : State} {r : Request} {rest : List Request} {i : Instr} (hs : s.requests = r :: rest)
    (hd : decode r = .ok i) : step s = exec i { s with requests := rest } := by
  simp only [step, hs, hd]

theorem step_malformed {s : State} {r : Request} {rest : List Request} {why : DecodeError}
    (hs : s.requests = r :: rest) (hd : decode r = .error why) : step s = .refused (.malformedRequest why) := by
  simp only [step, hs, hd]

/-- Inversion: what a step that answers a next state did. -/
theorem step_next {s t : State} (h : step s = .next t) :
    (s.requests = [] ∧ t = s) ∨
    (∃ r rest i, s.requests = r :: rest ∧ decode r = .ok i ∧ exec i { s with requests := rest } = .next t) := by
  cases hs : s.requests with
  | nil =>
    rw [step_idle hs] at h
    exact .inl ⟨rfl, by injection h with h; exact h.symm⟩
  | cons r rest =>
    cases hd : decode r with
    | error why => rw [step_malformed hs hd] at h; cases h
    | ok i => exact .inr ⟨r, rest, i, rfl, hd, by rw [← step_serves hs hd, h]⟩

end Sys2Proof.Machine
end

