-- ==== Sys2Proof/Laws/PerInstr.lean ====
section
/-! SUPPORT. The per-operation family: encoding an operation as a request record and decoding it gives it back (spec
30_encoding.md R72; 10_state.md R25, R26). -/

namespace Sys2Proof.Laws.RoundTrip

/-- A well-formed operation survives the request record. -/
def Statement (i : Instr) : Prop := i.wellFormed = true → decode (encode i) = .ok i

theorem takePayload_encoded {r : Request} {p : List Byte} (hp : payloadFits p = true)
    (hl : r.plen = BitVec.ofNat 8 p.length) (hr : r.payload = p) : takePayload r = .ok p := by
  have := Machine.ofNat_length_toNat ((Machine.payloadFits_iff p).mp hp)
  simp [takePayload, hl, hr, this]

theorem encFrame (h k t : Byte) (p : List Byte) : Statement (.encFrame h k t p) := by
  intro hp
  have := takePayload_encoded (r := encode (.encFrame h k t p)) hp rfl rfl
  simp only [decode, this]
  rfl

theorem cksum (t : Byte) (p : List Byte) : Statement (.cksum t p) := by
  intro hp
  have := takePayload_encoded (r := encode (.cksum t p)) hp rfl rfl
  simp only [decode, this]
  rfl

theorem encGet (t : Byte) : Statement (.encGet t) := fun _ => rfl
theorem encSetf (t : Byte) (f : FloatBits) : Statement (.encSetf t f) := fun _ => rfl
theorem encSetb (t : Byte) (v : Int) : Statement (.encSetb t v) := fun _ => rfl
theorem encSession (o : Bool) : Statement (.encSession o) := fun _ => rfl
theorem rxAppend (d : List Byte) : Statement (.rxAppend d) := fun _ => rfl
theorem rxScan : Statement .rxScan := fun _ => rfl
theorem rxDrain : Statement .rxDrain := fun _ => rfl
theorem reset : Statement .reset := fun _ => rfl

theorem reservedOp (op : OpCode) : Statement (.reservedOp op) := by
  revert op
  unfold Statement
  decide

end Sys2Proof.Laws.RoundTrip
end

