-- ==== Sys2Proof/Tests/Slice0.lean ====
section
/-! SUPPORT. Tests and witnesses. Expected values come from the spec: the vectors VK, VE, VS, VX and the programs P of
95_test_vectors.md, the codes of 30_encoding.md R72, the layout of 20_memory.md R49. -/

namespace Sys2Proof.Tests

open Sys2Proof Sys2Proof.Machine

/-! ### Helpers -/

/-- Illustrative frame A (VE18). -/
def frameA : List Byte := [0xF0, 0xA1, 0xC0, 0x04, 0x00, 0x00, 0x98, 0x41, 0x9D]

/-- Illustrative frame B (VE19). -/
def frameB : List Byte := [0xF0, 0xA1, 0xDB, 0x01, 0x01, 0xDD]

/-- Frame A as a value. -/
def valueA : Frame := ⟨0xF0, 0xA1, 0xC0, [0x00, 0x00, 0x98, 0x41]⟩

/-- The reset state with these bytes in RXBUF. -/
def withBuf (buf : List Byte) : State := { State.reset with rxbuf := buf }

/-- As `withBuf`, with BUF_CAP 260. -/
def withCap (buf : List Byte) : State := { withBuf buf with params := { bufCap := some 260 } }

/-- As `withBuf`, with MIN_AVAIL 6. -/
def withSix (buf : List Byte) : State := { withBuf buf with params := { minAvail := .six } }

/-- What is observed of one operation (R14): its result and the RXBUF left. -/
def seen (i : Instr) (s : State) : Option (Response × Memory) :=
  match exec i s with
  | .next t => some (t.response, t.rxbuf)
  | .fault _ => none
  | .refused _ => none

/-- The refusal of one operation, if it is refused. -/
def refusal (i : Instr) (s : State) : Option Refusal :=
  match exec i s with
  | .next _ => none
  | .fault _ => none
  | .refused r => some r

/-! ### WellFormed: an ill-formed term for each check -/

theorem smoke_longPayloadFrame : (Instr.encFrame 0xF0 0xA1 0xC0 (List.replicate 256 0)).wellFormed = false := by decide +kernel
theorem smoke_longPayloadCksum : (Instr.cksum 0xC0 (List.replicate 256 0)).wellFormed = false := by decide +kernel
theorem smoke_assignedReserved : (Instr.reservedOp 9#4).wellFormed = false := by decide
theorem smoke_longestPayload : (Instr.cksum 0xC0 (List.replicate 255 0)).wellFormed = true := by decide +kernel

/-! ### Decode: one record per operation, with the code of R72 in binary -/

theorem decode_encFrame :
    decode { op := 0b0000#4, header := 0xF0, command := 0xA1, typeId := 0xDB, plen := 1, payload := [0x01] } =
      .ok (.encFrame 0xF0 0xA1 0xDB [0x01]) := rfl
theorem decode_encGet : decode { op := 0b0001#4, typeId := 0x22 } = .ok (.encGet 0x22) := rfl
theorem decode_encSetf : decode { op := 0b0010#4, typeId := 0xC1, fbits := 0x41480000 } =
    .ok (.encSetf 0xC1 0x41480000) := rfl
theorem decode_encSetb : decode { op := 0b0011#4, typeId := 0xD6, bval := 300 } = .ok (.encSetb 0xD6 300) := rfl
theorem decode_encSession : decode { op := 0b0100#4, opening := true } = .ok (.encSession true) := rfl
theorem decode_cksum : decode { op := 0b0101#4, typeId := 0x05, plen := 2, payload := [0xAA, 0xBB] } =
    .ok (.cksum 0x05 [0xAA, 0xBB]) := rfl
theorem decode_rxAppend : decode { op := 0b1000#4, data := [0xC0, 0x04] } = .ok (.rxAppend [0xC0, 0x04]) := rfl
theorem decode_rxScan : decode { op := 0b1001#4 } = .ok .rxScan := rfl
theorem decode_rxDrain : decode { op := 0b1010#4 } = .ok .rxDrain := rfl
theorem decode_reset : decode { op := 0b1111#4 } = .ok .reset := rfl
theorem decode_reserved : ([0b0110#4, 0b0111#4, 0b1011#4, 0b1100#4, 0b1101#4, 0b1110#4] : List OpCode).map
    (fun op => (decode { op := op }).toOption) =
    [some (.reservedOp 6), some (.reservedOp 7), some (.reservedOp 11), some (.reservedOp 12),
     some (.reservedOp 13), some (.reservedOp 14)] := by decide
theorem decode_shortPayload : decode { op := 0b0000#4, plen := 2, payload := [0xAA] } =
    .error (.payloadShort 2 1) := rfl
theorem decode_extraPayloadIsNoPayload : decode { op := 0b0101#4, typeId := 5, plen := 1, payload := [0xAA, 0xBB] } =
    .ok (.cksum 5 [0xAA]) := rfl
theorem decode_tableWords : [decodeTableWord 8 0x1, decodeTableWord 8 0x9, decodeTableWord 24 0x67BCDE] =
    [some (.encGet 0), some .rxScan, some (.reservedOp 14)] := by decide

/-! ### One step of each operation -/

/-- VK6, VK10. -/
theorem test_cksum_wraps : seen (.cksum 0xFF [0x00]) State.reset = some (.checksum 0x00, []) := by decide
theorem test_cksum_payload : seen (.cksum 0x05 [0xAA, 0xBB]) State.reset = some (.checksum 0x6C, []) := by decide

/-- VE18, VE21. -/
theorem test_encFrame : seen (.encFrame 0xF0 0xA1 0xC0 [0x00, 0x00, 0x98, 0x41]) State.reset =
    some (.bytes frameA, []) := by decide
theorem test_encFrame_unchecked : seen (.encFrame 0x55 0x77 0x05 [0xAA, 0xBB]) State.reset =
    some (.bytes [0x55, 0x77, 0x05, 0x02, 0xAA, 0xBB, 0x6C], []) := by decide

/-- VE1 (DOC's scenario 1), VE2. -/
theorem test_encGet : seen (.encGet 0x22) State.reset =
    some (.bytes [0xF1, 0xA1, 0x22, 0x01, 0x00, 0x23], []) := by decide
theorem test_encGet_wraps : seen (.encGet 0xFF) (withBuf frameB) =
    some (.bytes [0xF1, 0xA1, 0xFF, 0x01, 0x00, 0x00], frameB) := by decide

/-- VE5 (DOC's scenario 2), VE6. -/
theorem test_encSetf : seen (.encSetf 0xC1 0x41480000) State.reset =
    some (.bytes [0xF1, 0xB1, 0xC1, 0x04, 0x00, 0x00, 0x48, 0x41, 0x4E], []) := by decide
theorem test_encSetf_order : seen (.encSetf 0xC2 0x3F800000) State.reset =
    some (.bytes [0xF1, 0xB1, 0xC2, 0x04, 0x00, 0x00, 0x80, 0x3F, 0x85], []) := by decide

/-- VE12, VE13. -/
theorem test_encSetb_truncates : seen (.encSetb 0xD6 300) State.reset =
    some (.bytes [0xF1, 0xB1, 0xD6, 0x01, 0x2C, 0x03], []) := by decide
theorem test_encSetb_negative : seen (.encSetb 0xD7 (-1)) State.reset =
    some (.bytes [0xF1, 0xB1, 0xD7, 0x01, 0xFF, 0xD7], []) := by decide

/-- VE15, VE16. -/
theorem test_encSession_open : seen (.encSession true) State.reset =
    some (.bytes [0xF1, 0xC1, 0x00, 0x01, 0x01, 0x02], []) := by decide
theorem test_encSession_close : seen (.encSession false) State.reset =
    some (.bytes [0xF1, 0xC1, 0x00, 0x01, 0x00, 0x01], []) := by decide

/-- VX1, VX10. -/
theorem test_rxAppend : seen (.rxAppend [0xC0, 0x04]) (withBuf [0xF0, 0xA1]) =
    some (.none, [0xF0, 0xA1, 0xC0, 0x04]) := by decide
theorem test_rxAppend_full : refusal (.rxAppend [0x00]) (withCap (List.replicate 260 0)) =
    some (.bufferFull 261 260) := by decide +kernel

/-- VX3, and VS14: resynchronization inside a candidate whose tail was lost. -/
theorem test_rxScan : seen .rxScan (withBuf ([0x00, 0x13, 0xFF] ++ frameA ++ [0xF0, 0xA1])) =
    some (.scan (.frame valueA 12), [0xF0, 0xA1]) := by decide
theorem test_rxScan_resync : seen .rxScan (withBuf ([0xF0, 0xA1, 0xC0, 0x04, 0x00, 0x00] ++ frameB ++ frameA)) =
    some (.scan (.frame ⟨0xF0, 0xA1, 0xDB, [0x01]⟩ 12), frameA) := by decide

/-- VX6, VX8. -/
theorem test_rxDrain : seen .rxDrain (withBuf ([0x00, 0x13, 0xFF] ++ frameA ++ frameB ++ [0xF0, 0xA1, 0xC0, 0x04])) =
    some (.drain [(valueA, 12), (⟨0xF0, 0xA1, 0xDB, [0x01]⟩, 6)] .exhausted, [0xF0, 0xA1, 0xC0, 0x04]) := by decide
theorem test_rxDrain_backToBack : seen .rxDrain (withBuf (frameA ++ frameA ++ frameA)) =
    some (.drain [(valueA, 9), (valueA, 9), (valueA, 9)] .exhausted, []) := by decide

/-- VX9. -/
theorem test_reset : seen .reset (withBuf [0xF0, 0xA1, 0xC0, 0x04]) = some (.none, []) := by decide

theorem test_reserved : refusal (.reservedOp 6) State.reset = some (.reservedOp 6) := by decide

/-! ### Witnesses: for each statement with hypotheses, a case that meets them all; for a statement of several clauses,
one for each clause, at the edge of its range -/

theorem witness_OperationCodesSelectOperations :
    ([{ op := 0#4, plen := 1, payload := [7] }, { op := 1#4 }, { op := 2#4 }, { op := 3#4 }, { op := 4#4 },
      { op := 5#4, plen := 0 }, { op := 8#4 }, { op := 9#4 }, { op := 10#4 }, { op := 15#4 }, { op := 6#4 },
      { op := 14#4 }] : List Request).map (fun r => (r.op.toNat, decide (r.plen.toNat ≤ r.payload.length))) =
      [(0, true), (1, true), (2, true), (3, true), (4, true), (5, true), (8, true), (9, true), (10, true), (15, true),
       (6, true), (14, true)] ∧
    isTx (.cksum 0 []) = true ∧ isTx .reset = false := by decide
theorem witness_DecodeOfEncodedOperation :
    (Instr.encFrame 0x55 0x77 0x05 (List.replicate 255 0xFF)).wellFormed = true ∧
    (Instr.reservedOp 14#4).wellFormed = true := by decide +kernel
theorem witness_DecodedOperationIsWellFormed :
    decode { op := 6#4, typeId := 3 } = .ok (.reservedOp 6) ∧
    (Instr.encGet 1).wellFormed = true ∧ encode (.encGet 1) = encode (.encGet 1) := ⟨rfl, by decide, rfl⟩
theorem witness_StepServesTheOldestRequest :
    ({ withBuf frameA with requests := [{ op := 9#4 }, { op := 15#4 }] } : State).requests =
      { op := 9#4 } :: [{ op := 15#4 }] ∧ decode { op := 9#4 } = .ok .rxScan := ⟨rfl, rfl⟩
theorem witness_IdleStepAndMalformedRequest :
    State.reset.requests = [] ∧
    ({ State.reset with requests := [{ op := 5#4, plen := 1 }] } : State).requests = { op := 5#4, plen := 1 } :: [] ∧
    ([] : List Byte).length < (1 : Byte).toNat := by decide
theorem witness_ReservedCodesAreRefused :
    ({ State.reset with requests := [{ op := 11#4, bval := 3 }] } : State).requests = [{ op := 11#4, bval := 3 }] ∧
    (11#4 : OpCode) = 11#4 := by decide
theorem witness_CksumIsSumModulo256 :
    (List.replicate 255 (0xFF : Byte)).length ≤ 255 ∧ 255 < (List.replicate 256 (0xFF : Byte)).length ∧
    seen (.cksum 0xC0 []) State.reset = some (.checksum 0xC0, []) := by decide +kernel
theorem witness_AccumulatorsGiveTheChecksum :
    ([0xBB, 0x02, 0x05, 0xAA] : List Byte).Perm (0x05 :: BitVec.ofNat 8 [0xAA, 0xBB].length :: [0xAA, 0xBB]) := by
  decide
theorem witness_ChecksumMissesCompensatedChanges :
    ([0xAA, 0xBB] : List Byte).Perm [0xBB, 0xAA] ∧ checksum 0x05 [0xAA, 0xBB] = 0x6C ∧
    checksum 0x05 [0xBB, 0xAA] = 0x6C := by decide
theorem witness_EncFrameReturnsTheLayout :
    ([] : List Byte).length ≤ 255 ∧ (List.replicate 255 (0 : Byte)).length ≤ 255 ∧
    255 < (List.replicate 256 (0 : Byte)).length := by decide +kernel
theorem witness_EncSetbKeepsTheLowByte :
    operandsInRangeOriginal (.encSetb 0xD6 0) = true ∧ operandsInRangeOriginal (.encSetb 0xD6 255) = true ∧
    operandsInRangeOriginal (.encSetb 0xD6 256) = false ∧ operandsInRangeOriginal (.encSetb 0xD6 (-1)) = false := by decide
theorem witness_EncodedBytesAreFramed :
    exec (.encSession true) State.reset =
      .next { State.reset with response := .bytes [0xF1, 0xC1, 0x00, 0x01, 0x01, 0x02] } ∧
    exec (.encFrame 0xF0 0xA1 0xC0 []) State.reset =
      .next { State.reset with response := .bytes [0xF0, 0xA1, 0xC0, 0x00, 0xC0] } ∧
    isTx (.encSession true) = true ∧ isTx (.encFrame 0xF0 0xA1 0xC0 []) = true := ⟨rfl, rfl, by decide, by decide⟩
theorem witness_TxIsPure :
    isTx (.encGet 0x22) = true ∧ (seen (.encGet 0x22) (withBuf frameA)).isSome = true := by decide
theorem witness_TxAndRxCommute :
    isTx (.encGet 0x22) = true ∧ isTx .rxScan = false ∧ (seen (.encGet 0x22) (withBuf frameA)).isSome = true ∧
    seen .rxScan (withBuf frameA) = some (.scan (.frame valueA 9), []) := by decide
theorem witness_TxIsTotal :
    isTx (.cksum 0xFF (List.replicate 255 0xFF)) = true ∧
    (Instr.cksum 0xFF (List.replicate 255 0xFF)).wellFormed = true ∧
    ∀ op, Instr.cksum 0xFF (List.replicate 255 0xFF) ≠ .reservedOp op := ⟨rfl, by decide +kernel, fun _ h => by cases h⟩
theorem witness_RxAppendAddsAtTheBack :
    (withCap (List.replicate 259 0)).params.bufCap = some 260 ∧
    (withCap (List.replicate 259 0)).rxbuf.length + [(0 : Byte)].length ≤ 260 ∧
    260 < (withCap (List.replicate 260 0)).rxbuf.length + [(0 : Byte)].length ∧
    State.reset.params.bufCap = none := by decide +kernel
theorem witness_AppendKeepsOffsets :
    seen (.rxAppend [0xC0]) (withBuf [0xF0]) = some (.none, [0xF0, 0xC0]) ∧
    seen (.rxAppend []) (withBuf [0xF0]) = some (.none, [0xF0]) ∧ 0 < (withBuf [0xF0]).rxlen := by decide
theorem witness_RxScanTruncatesOnFrame :
    scan .five frameA = .frame valueA 9 ∧ scan .five [0xF0, 0xA1, 0xC0, 0x04, 0x00, 0x00] = .needMore ∧
    scan .five [0xF0, 0xA1, 0xC0, 0x00] = .exhausted := by decide
theorem witness_TruncationRenumbersOffsets :
    seen .rxScan (withBuf (0x00 :: frameA ++ [0x07])) = some (.scan (.frame valueA 10), [0x07]) := by decide
theorem witness_ScanWithoutFrameIsIdempotent :
    seen .rxScan (withBuf [0xF0, 0xA1, 0xC0, 0x04, 0x00, 0x00]) =
      some (.scan .needMore, [0xF0, 0xA1, 0xC0, 0x04, 0x00, 0x00]) ∧
    seen .rxScan (withBuf [0xF0]) = some (.scan .exhausted, [0xF0]) := by decide
theorem witness_RxDrainRepeatsTheScan :
    scan .five [] = .exhausted ∧ scan .five [0xF0, 0xA1, 0xC0, 0x01, 0x00] = .needMore ∧
    scan .five (frameB ++ frameA) = .frame ⟨0xF0, 0xA1, 0xDB, [0x01]⟩ 6 := by decide
theorem witness_DrainIsBoundedAndComplete :
    seen .rxDrain (withBuf [0xF0, 0x00, 0x00, 0x00, 0x00, 0xF1, 0x00, 0x00, 0x00, 0x00]) =
      some (.drain [(⟨0xF0, 0x00, 0x00, []⟩, 5), (⟨0xF1, 0x00, 0x00, []⟩, 5)] .exhausted, []) := by decide
theorem witness_FirstScanAfterResetIsExhausted :
    exec .reset (withBuf frameA) = .next { withBuf frameA with rxbuf := [], response := .none } := rfl
theorem witness_ExhaustedWhenTooFewBytesRemain :
    scan .five (List.replicate 7 0x55) = .exhausted ∧ ([0xF0, 0, 0, 0] : List Byte).length < Config.MinAvail.five.toNat ∧
    ([0xF0, 0, 0, 0, 0] : List Byte).length < Config.MinAvail.six.toNat := by decide
theorem witness_NonHeaderByteIsSkipped :
    Config.MinAvail.five.toNat ≤ ([0xF2, 0, 0, 0, 0] : List Byte).length ∧ (0xF2 : Byte) ≠ 0xF0 ∧
    (0xF2 : Byte) ≠ 0xF1 := by decide
theorem witness_MismatchStepsOneByte :
    Config.MinAvail.five.toNat ≤ (0xF0 :: 0xA1 :: 0xC0 :: 0x01 :: ([0x00] ++ (0x00 : Byte) :: frameB)).length ∧
    ([0x00] : List Byte).length = (0x01 : Byte).toNat ∧ (0x00 : Byte) ≠ checksum 0xC0 [0x00] := by decide
theorem witness_IncompleteCandidateStopsTheScan :
    rejectsAll .five [0x00] (0xF0 :: 0xA1 :: 0xC0 :: 0x20 :: frameA) ∧
    Config.MinAvail.five.toNat ≤ 4 + frameA.length ∧
    ([0x00] ++ 0xF0 :: 0xA1 :: 0xC0 :: (0x20 : Byte) :: frameA).length < [(0x00 : Byte)].length + 5 + (0x20 : Byte).toNat :=
  ⟨by unfold rejectsAll; decide, by decide, by decide⟩
theorem witness_FrameIsTheEarliestValidCandidate :
    scan .five ([0x00, 0x13, 0xFF] ++ frameA) = .frame valueA 12 ∧
    rejectsAll .five [0x00, 0x13, 0xFF] (frameBytes 0xF0 0xA1 0xC0 [0x00, 0x00, 0x98, 0x41] ++ []) :=
  ⟨by decide, by unfold rejectsAll; decide⟩
theorem witness_EncodedFrameScansBack :
    Config.MinAvail.six.toNat ≤ 5 + ([0x01] : List Byte).length ∧ Config.MinAvail.five.toNat ≤ 5 + ([] : List Byte).length ∧
    Config.MinAvail.six.toNat = 6 ∧
    scan .five (frameBytes 0x55 0x77 0x05 [0xF0, 0x00, 0x00, 0x00, 0x00]) = .frame ⟨0xF0, 0x00, 0x00, []⟩ 9 := by decide
theorem witness_LoopBackRun :
    Config.MinAvail.six.toNat ≤ 5 + ([0x00] : List Byte).length ∧ (withSix []).rxbuf = [] ∧
    (withSix []).params.legal = true ∧ (withCap []).params.legal = true := by decide
theorem witness_FoundFrameIsStableUnderAppend : scan .six (0x00 :: frameA) = .frame valueA 10 := by decide
theorem witness_StalledCandidateIsTestedAgain :
    scan .five [0x00, 0xF0, 0xA1, 0xC0, 0x04, 0x00] = .needMore ∧
    stopOffset .five [0x00, 0xF0, 0xA1, 0xC0, 0x04, 0x00] = 1 ∧
    ([0x00, 0xF0, 0xA1, 0xC0, 0x04, 0x00] ++ [0x00, 0x98, 0x41] : List Byte).length < 1 + 5 + (0x04 : Byte).toNat ∧
    1 + 5 + (0x04 : Byte).toNat ≤ ([0x00, 0xF0, 0xA1, 0xC0, 0x04, 0x00] ++ [0x00, 0x98, 0x41, 0x9D] : List Byte).length := by
  decide
theorem witness_ChunkingDoesNotMatter :
    appendFits ([0xF0, 0xA1, 0xC0, 0x04, 0x00] ++ [0x00, 0x98, 0x41, 0x9D, 0xF0]) (withCap [0x13]) = true ∧
    appendFits frameA State.reset = true := by decide
theorem witness_DeadPrefixMayBeSkipped :
    (scan .five [0x55, 0x55, 0xF0, 0xA1, 0xC0, 0x04]).status ≠ .frame ∧
    stopOffset .five [0x55, 0x55, 0xF0, 0xA1, 0xC0, 0x04] = 2 := by decide
theorem witness_ResynchronizationCondition :
    valueA.header = 0xF0 ∧ valueA.payload.length ≤ 255 ∧ Config.MinAvail.six.toNat ≤ valueA.toBytes.length ∧
    scan .five ([0xF0, 0xA1, 0xC0, 0x04, 0x00, 0x01, 0x98, 0x41, 0x9D] ++ frameB) =
      .frame ⟨0xF0, 0xA1, 0xDB, [0x01]⟩ 15 := by decide
theorem witness_HeaderFreeNoiseIsTolerated :
    (∀ b ∈ ([0x00, 0x13, 0xFF] : List Byte), b ≠ 0xF0 ∧ b ≠ 0xF1) ∧ valueA.payload.length ≤ 255 ∧
    Config.MinAvail.six.toNat ≤ (valueA.toBytes ++ []).length := by decide
theorem witness_StrayHeaderStallsTheScan :
    6 + valueA.payload.length + frameB.length < 5 + valueA.typeId.toNat ∧
    scan .five (0xF1 :: (valueA.toBytes ++ frameB)) = .needMore := by decide
theorem witness_StallIsBoundedInBytes :
    scan .five [0xF0, 0xA1, 0xC0, 0xFF, 0x00] = .needMore ∧
    stopOffset .five [0xF0, 0xA1, 0xC0, 0xFF, 0x00] + 260 ≤
      ([0xF0, 0xA1, 0xC0, 0xFF, 0x00] ++ List.replicate 255 0x00 : List Byte).length := by decide +kernel
theorem witness_MinAvailSettingsDifferOnlyAtTheEnd :
    scan .five [0xF0, 0xA1, 0xC0, 0x00, 0xC0] ≠ scan .six [0xF0, 0xA1, 0xC0, 0x00, 0xC0] ∧
    scan .five [0xF0, 0xA1, 0xC0, 0x01, 0xC0] ≠ scan .six [0xF0, 0xA1, 0xC0, 0x01, 0xC0] := by decide
theorem witness_HeaderAndCommandAreUnprotected :
    valueA.payload.length ≤ 255 ∧ Config.MinAvail.six.toNat ≤ (valueA.toBytes ++ [0x00]).length := by decide
theorem witness_ZeroLengthPatternIsAlwaysAFrame :
    Config.MinAvail.five.toNat ≤ 5 + ([] : List Byte).length ∧ Config.MinAvail.six.toNat ≤ 5 + ([0x07] : List Byte).length := by
  decide
theorem witness_TestsAreMadeInFixedOrder :
    ([0x55, 0, 0, 0] : List Byte).length < Config.MinAvail.five.toNat ∧
    examine .five [0x55, 0, 0, 0, 0] = none ∧ examine .five [0xF0, 0, 0, 1, 0] = some .needMore ∧
    examine .five [0xF1, 7, 3, 0, 3] = some (.accept ⟨0xF1, 7, 3, []⟩) ∧ examine .five [0xF1, 7, 3, 0, 4] = none := by
  decide
theorem witness_OnlyThreeThingsChangeTheBuffer :
    seen (.rxAppend [1]) (withBuf [2]) = some (.none, [2, 1]) ∧ seen .reset (withBuf [2]) = some (.none, []) ∧
    seen .rxScan (withBuf frameA) = some (.scan (.frame valueA 9), []) ∧
    seen .rxDrain (withBuf frameA) = some (.drain [(valueA, 9)] .exhausted, []) ∧
    seen (.encGet 0) (withBuf [2]) = some (.bytes [0xF1, 0xA1, 0x00, 0x01, 0x00, 0x01], [2]) := by decide
theorem witness_OnlyTheListedInputsAreRefused :
    refusal (.encFrame 0 0 0 (List.replicate 256 0)) State.reset = some (.payloadTooLong 256) ∧
    refusal (.cksum 0 (List.replicate 256 0)) State.reset = some (.payloadTooLong 256) ∧
    refusal (.rxAppend (List.replicate 261 0)) (withCap []) = some (.bufferFull 261 260) ∧
    refusal (.reservedOp 7) State.reset = some (.reservedOp 7) := by decide +kernel
theorem witness_RxDependsOnTheBufferAlone :
    isTx .rxScan = false ∧ (seen .rxScan (withBuf frameA)).isSome = true ∧
    ({ withBuf frameA with response := .checksum 3 } : State).rxbuf = (withBuf frameA).rxbuf := by decide
theorem witness_StepTakesOneRequestInOrder :
    step { State.reset with requests := [{ op := 4#4 }, { op := 15#4 }] } =
      .next ({ State.reset with requests := [{ op := 15#4 }] }.respond
        (.bytes [0xF1, 0xC1, 0x00, 0x01, 0x00, 0x01])) := rfl
theorem witness_StepKeepsTheInvariant :
    State.Inv { withCap frameA with requests := [{ op := 9#4 }] } ∧
    step { withCap frameA with requests := [{ op := 9#4 }] } =
      .next { withCap [] with response := .scan (.frame valueA 9) } :=
  ⟨⟨by decide, by decide, by decide⟩, rfl⟩
theorem witness_RunsInRangeComplete :
    (∀ i ∈ ([.rxAppend [1], .rxDrain, .encSetb 3 300] : List Instr),
      operandsInRange i = true ∧ ∀ op, i ≠ .reservedOp op) ∧
    fits [.rxAppend [1], .rxDrain, .encSetb 3 300] (withCap (List.replicate 259 0)) = true :=
  ⟨by simp [operandsInRange], by decide +kernel⟩
theorem witness_RunIsStepsOverRequests :
    (∀ i ∈ ([.rxAppend frameB, .rxScan] : List Instr), i.wellFormed = true) ∧
    observe [.rxAppend frameB, .rxScan] State.reset =
      .next ([.none, .scan (.frame ⟨0xF0, 0xA1, 0xDB, [0x01]⟩ 6)],
        { State.reset with response := .scan (.frame ⟨0xF0, 0xA1, 0xDB, [0x01]⟩ 6) }) := ⟨by decide, rfl⟩
theorem witness_StartUpFrames :
    (115200, (0x05 : Byte)) ∈ [(9600, (0x01 : Byte)), (19200, 0x02), (38400, 0x03), (57600, 0x04), (115200, 0x05),
      (250000, 0x05)] ∧ baudIndex 9600 = 0 ∧ baudIndex 250000 = 4 := by decide

end Sys2Proof.Tests
end

section
/-! Requests: records that lack their payload, records of well-formed operations, and the step that serves one. -/

namespace Sys2Proof.Machine

variable {i : Instr} {s t : State}

/-! ### Records -/

theorem takePayload_short {r : Request} (h : r.payload.length < r.plen.toNat) :
    takePayload r = .error (.payloadShort r.plen.toNat r.payload.length) :=
  if_neg (Nat.not_le.mpr h)

/-- A record of ENC_FRAME or CKSUM that lacks its payload stands for no operation (R25, assumption 8). -/
theorem decode_payloadShort {r : Request} (hop : r.op = 0#4 ∨ r.op = 5#4) (h : r.payload.length < r.plen.toNat) :
    decode r = .error (.payloadShort r.plen.toNat r.payload.length) := by
  rcases hop with hop | hop <;> simp only [decode, hop, takePayload_short h] <;> rfl

open Laws in
/-- The round trip of every operation, assembled from the per-operation family (R72). -/
theorem decode_encode (h : i.wellFormed = true) : decode (encode i) = .ok i := by
  cases i with
  | encFrame header command typeId payload => exact RoundTrip.encFrame header command typeId payload h
  | encGet typeId => exact RoundTrip.encGet typeId h
  | encSetf typeId fbits => exact RoundTrip.encSetf typeId fbits h
  | encSetb typeId bval => exact RoundTrip.encSetb typeId bval h
  | encSession opening => exact RoundTrip.encSession opening h
  | cksum typeId payload => exact RoundTrip.cksum typeId payload h
  | rxAppend data => exact RoundTrip.rxAppend data h
  | rxScan => exact RoundTrip.rxScan h
  | rxDrain => exact RoundTrip.rxDrain h
  | reset => exact RoundTrip.reset h
  | reservedOp op => exact RoundTrip.reservedOp op h

/-! ### Waiting requests -/

theorem exec_keeps_requests (h : exec i s = .next t) : t.requests = s.requests := by
  obtain ⟨-, rfl⟩ := exec_next h
  rfl

/-- No operation reads the waiting requests: it does the same whatever they are. -/
theorem exec_withRequests (waiting : List Request) (h : exec i s = .next t) :
    exec i { s with requests := waiting } = .next { t with requests := waiting } := by
  obtain ⟨⟨inRange, assigned, appends⟩, rfl⟩ := exec_next h
  have served : Served i { s with requests := waiting } := ⟨inRange, assigned, appends⟩
  rw [exec_served served]
  cases i <;> rfl

/-- One step serves the record of a well-formed operation as `exec` serves the operation (R50). -/
theorem step_encode (waiting : List Request) (hw : i.wellFormed = true) (h : exec i s = .next t) :
    step { s with requests := encode i :: waiting } = .next { t with requests := waiting } := by
  rw [step_serves rfl (decode_encode hw)]
  exact exec_withRequests (s := s) waiting h

/-- A run of the machine whose first step answers a next state goes on from there. -/
theorem core_run_succ (k : Nat) (h : step s = .next t) : core.run (k + 1) s = core.run k t := by
  have h' : core.step s = .next t := h
  simp only [Host.Core.run, h']

/-- Settles O6: by the step's rules for no request and for a record that stands for no operation. -/
theorem idleStepAndMalformedRequest : Obligations.IdleStepAndMalformedRequest :=
  ⟨fun _ idle => step_idle idle,
    fun _ _ _ hreq hop short => step_malformed hreq (decode_payloadShort hop short)⟩

end Sys2Proof.Machine
end

section
/-! Runs (spec 00_scope.md R14): when a run completes, and that it is the machine's steps over request records. -/

namespace Sys2Proof.Machine

variable {i : Instr} {is : List Instr} {s t u : State} {results : List Response}

/-- A run completes exactly when its first operation is served and the rest completes from the state it leaves. -/
theorem observe_cons_eq_next : observe (i :: is) s = .next (results, u) ↔
    ∃ t later, exec i s = .next t ∧ observe is t = .next (later, u) ∧ results = t.response :: later := by
  constructor
  · intro h
    simp only [observe] at h
    cases he : exec i s with
    | fault r => cases r
    | refused r => simp [he] at h
    | next t =>
      cases ho : observe is t with
      | fault r => cases r
      | refused r => simp [he, ho] at h
      | next p =>
        simp only [he, ho, Host.Outcome.next.injEq, Prod.mk.injEq] at h
        obtain ⟨rfl, rfl⟩ := h
        exact ⟨t, p.1, rfl, ho, rfl⟩
  · rintro ⟨t, later, he, ho, rfl⟩
    simp only [observe, he, ho]

theorem appendFits_of_fits_cons (h : fits (i :: is) s = true) : ∀ d, i = .rxAppend d → appendFits d s = true := by
  rintro d rfl
  exact (Bool.and_eq_true_iff.mp h).1

theorem fits_of_fits_cons (h : fits (i :: is) s = true) (he : exec i s = .next t) : fits is t = true := by
  have tail := (Bool.and_eq_true_iff.mp h).2
  rwa [he] at tail

/-- Settles O58, by induction on the run: its first operation is served, and the rest still fits behind it. -/
theorem runsInRangeComplete : Obligations.RunsInRangeComplete := by
  intro is
  induction is with
  | nil => exact fun s _ _ => ⟨[], s, rfl, rfl⟩
  | cons i is ih =>
    intro s hall hfit
    obtain ⟨⟨inRange, assigned⟩, htail⟩ := List.forall_mem_cons.mp hall
    have he := exec_served ⟨inRange, assigned, appendFits_of_fits_cons hfit⟩
    obtain ⟨later, u, ho, hlen⟩ := ih _ htail (fits_of_fits_cons hfit he)
    exact ⟨_, u, observe_cons_eq_next.mpr ⟨_, later, he, ho, rfl⟩, by simp [hlen]⟩

/-- Settles O59, by induction on the run: each operation is one step over its record, and no operation touches the
requests that wait behind it. -/
theorem runIsStepsOverRequests : Obligations.RunIsStepsOverRequests := by
  intro is
  induction is with
  | nil =>
    intro s t results _ h
    cases h
    rfl
  | cons i is ih =>
    intro s u results hall h
    obtain ⟨hw, htail⟩ := List.forall_mem_cons.mp hall
    obtain ⟨t, later, he, ho, -⟩ := observe_cons_eq_next.mp h
    have rest := ih t u later htail ho
    rw [exec_keeps_requests he] at rest
    exact (core_run_succ is.length (step_encode (is.map encode ++ s.requests) hw he)).trans rest

end Sys2Proof.Machine
end

section
/-! What a scan and a drain report (spec 10_state.md R26, R28; 42_scanner.md R131): the frames they return, the bytes they
count, and the form of their response records. -/

namespace Sys2Proof.Machine

variable {m : Config.MinAvail}

theorem Frame.scanned_iff (f : Frame) :
    f.scanned = true ↔ (f.header = 0xF0 ∨ f.header = 0xF1) ∧ f.payload.length ≤ 255 := by
  simp only [Frame.scanned, Bool.and_eq_true, isHeader_iff, payloadFits_iff]

/-- The part of `scan_frame` that the response record's form rests on (R26). -/
theorem scan_frame_wf {buf : Memory} {f : Frame} {c : Nat} (h : scan m buf = .frame f c) :
    f.scanned = true ∧ 5 + f.payload.length ≤ c := by
  obtain ⟨-, -, -, -, -, scanned, -⟩ := scan_frame h
  exact ⟨scanned, (scan_frame_consumed h).1⟩

/-- R153's subtraction for the garbage count never truncates on a frame a scan returns. -/
theorem ScanResult.garbage_add {f : Frame} {c : Nat} (h : 5 + f.payload.length ≤ c) :
    5 + f.payload.length + (ScanResult.frame f c).garbage = c := by
  simp only [ScanResult.garbage, Config.frameOverhead]
  omega

theorem scan_response_wf (m : Config.MinAvail) (buf : Memory) : (Response.scan (scan m buf)).wf = true := by
  cases h : scan m buf with
  | exhausted => rfl
  | needMore => rfl
  | frame f c =>
    obtain ⟨scanned, counted⟩ := scan_frame_wf h
    simp only [Response.wf, scanned, counted, decide_true, Bool.and_self]

/-- A drain returns frames of the form a scan returns, and ends with a scan that finds none (R131). -/
theorem drain_response_wf (m : Config.MinAvail) (buf : Memory) :
    (Response.drain (drain m buf).frames (drain m buf).status).wf = true := by
  induction buf using drain_induction m with
  | exhausted buf h => rw [drain_exhausted h]; rfl
  | needMore buf h => rw [drain_needMore h]; rfl
  | frame buf f c h ih =>
    obtain ⟨scanned, counted⟩ := scan_frame_wf h
    rw [drain_frame h]
    simpa only [Response.wf, List.all_cons, scanned, counted, decide_true, Bool.and_self, Bool.true_and] using ih

/-- A drain removes from the front the bytes its frames count, and no others (R131, R48). -/
theorem drain_rest_eq_drop (m : Config.MinAvail) (buf : Memory) :
    (drain m buf).rest = buf.drop ((drain m buf).frames.map Prod.snd).sum := by
  induction buf using drain_induction m with
  | exhausted buf h => rw [drain_exhausted h]; rfl
  | needMore buf h => rw [drain_needMore h]; rfl
  | frame buf f c h ih =>
    rw [drain_frame h, ih]
    simp only [Memory.dropFront_eq, List.drop_drop, List.map_cons, List.sum_cons]

theorem Status.code_ne_three (status : Status) : status.code ≠ 3#2 := by
  cases status <;> decide

theorem ScanResult.eq_frame_of_status {r : ScanResult} (h : r.status = .frame) : ∃ f c, r = .frame f c := by
  cases r with
  | exhausted | needMore => cases h
  | frame f c => exact ⟨f, c, rfl⟩

/-- Without FRAME nothing is consumed and there is no frame (R26, R28). -/
theorem ScanResult.fields_of_no_frame {r : ScanResult} (h : r.status ≠ .frame) : r.consumed = 0 ∧ r.frame? = none := by
  cases r with
  | exhausted | needMore => exact ⟨rfl, rfl⟩
  | frame f c => exact absurd rfl h

/-- Settles O33: the code is a function of the status, and the fields of a frame are those of the candidate the scan
accepted. -/
theorem responseRecordFields : Obligations.ResponseRecordFields := by
  intro m buf
  refine ⟨congrArg Status.code, congrArg Status.code, congrArg Status.code, Status.code_ne_three _,
    ScanResult.fields_of_no_frame, fun found => ?_⟩
  obtain ⟨f, c, h⟩ := ScanResult.eq_frame_of_status found
  obtain ⟨scanned, counted⟩ := scan_frame_wf h
  obtain ⟨header, short⟩ := f.scanned_iff.mp scanned
  rw [h]
  exact ⟨f, rfl, ofNat_length_toNat short, header, ScanResult.garbage_add counted⟩

end Sys2Proof.Machine
end

section
/-! What an operation does to the state (spec 10_state.md R20, R24, R33): a TX operation writes its response alone, three
operations change RXBUF, and every operation keeps the invariant. -/

namespace Sys2Proof.Machine

variable {i : Instr} {s t : State}

/-! ### Unit TX -/

/-- Bit 3 of the code sets the other unit apart (R72). -/
@[simp] theorem isTx_rxAppend (d : List Byte) : isTx (.rxAppend d) = false := by simp [isTx, opCode]
@[simp] theorem isTx_rxScan : isTx .rxScan = false := rfl
@[simp] theorem isTx_rxDrain : isTx .rxDrain = false := rfl
@[simp] theorem isTx_reset : isTx .reset = false := rfl

/-- A TX operation leaves RXBUF, and its response is the same in every state (R24). -/
theorem tx_effect (htx : isTx i = true) (s u : State) :
    bufferEffect i s = s.rxbuf ∧ responseOf i s = responseOf i u := by
  cases i with
  | rxAppend | rxScan | rxDrain | reset => simp at htx
  | encFrame | encGet | encSetf | encSetb | encSession | cksum | reservedOp => exact ⟨rfl, rfl⟩

/-- Whether a TX operation is served is a matter of its operands alone. -/
theorem tx_served (htx : isTx i = true) (h : Served i s) (u : State) : Served i u where
  inRange := h.inRange
  assigned := h.assigned
  appends := by
    rintro d rfl
    simp at htx

/-- What a served TX operation does: the response is written and nothing else (R24). -/
theorem tx_exec (htx : isTx i = true) (h : Served i s) (u : State) :
    exec i u = .next { u with response := responseOf i s } := by
  obtain ⟨buffer, -⟩ := tx_effect htx u s
  obtain ⟨-, response⟩ := tx_effect htx s u
  rw [exec_served (tx_served htx h u), buffer, response]
  rfl

/-- Settles O18: a served TX operation has one response, in the state it was served in and in every other. -/
theorem txIsPure : Obligations.TxIsPure := by
  intro i s t htx h
  obtain ⟨served, rfl⟩ := exec_next h
  obtain ⟨buffer, -⟩ := tx_effect htx s s
  exact ⟨by rw [buffer]; rfl, fun u => tx_exec htx served u⟩

/-! ### RXBUF -/

/-- An operation that is served leaves a buffer within BUF_CAP: only an append makes it longer, and one that does not
fit is not served (R20, R129). -/
theorem bufferEffect_wf (h : Served i s) (hs : s.rxbuf.wf s.params = true) :
    (bufferEffect i s).wf s.params = true := by
  cases i with
  | rxAppend d => exact h.appends d rfl
  | rxScan => exact Memory.wf_dropFront _ hs
  | rxDrain =>
    obtain ⟨k, rest⟩ := drain_rest_suffix s.params.minAvail s.rxbuf
    rw [bufferEffect, rest]
    exact Memory.wf_dropFront k hs
  | reset => exact Memory.wf_nil _
  | encFrame | encGet | encSetf | encSetb | encSession | cksum | reservedOp => exact hs

/-- Settles O52, by cases on the operation: what RX_SCAN and RX_DRAIN remove is what their responses count. -/
theorem onlyThreeThingsChangeTheBuffer : Obligations.OnlyThreeThingsChangeTheBuffer := by
  intro i s t h
  obtain ⟨served, rfl⟩ := exec_next h
  refine ⟨bufferEffect_wf served, ?_⟩
  cases i with
  | rxAppend d => exact .inr (.inl ⟨d, rfl, rfl⟩)
  | rxScan =>
    simp only [State.respond_rxbuf, State.setRxbuf_rxbuf, State.respond_response, bufferEffect, responseOf]
    cases scan s.params.minAvail s.rxbuf with
    | exhausted | needMore => exact .inl rfl
    | frame f c => exact .inr (.inr (.inl ⟨trivial, f, c, rfl, rfl⟩))
  | rxDrain => exact .inr (.inr (.inr (.inl ⟨rfl, _, _, rfl, drain_rest_eq_drop _ _⟩)))
  | reset => exact .inr (.inr (.inr (.inr ⟨rfl, rfl⟩)))
  | encFrame | encGet | encSetf | encSetb | encSession | cksum | reservedOp => exact .inl rfl

/-! ### The invariant -/

/-- The response of an operation whose operands are in range has the form of R25, R26 and R131. -/
theorem responseOf_wf (h : operandsInRange i = true) (s : State) : (responseOf i s).wf = true := by
  cases i with
  | encFrame header command typeId payload => exact wellFramed_frameBytes _ _ _ ((payloadFits_iff payload).mp h)
  | encGet | encSetf | encSetb | encSession =>
    exact wellFramed_frameBytes _ _ _ (Nat.le_of_ble_eq_true rfl)
  | rxScan => exact scan_response_wf _ _
  | rxDrain => exact drain_response_wf _ _
  | cksum | rxAppend | reset | reservedOp => rfl

theorem exec_keeps_inv (hs : s.Inv) (h : exec i s = .next t) : t.Inv := by
  obtain ⟨served, rfl⟩ := exec_next h
  exact ⟨hs.legal, bufferEffect_wf served hs.bounded, responseOf_wf served.inRange s⟩

/-- The invariant does not speak of the waiting requests. -/
theorem State.Inv.withRequests (hs : s.Inv) (waiting : List Request) : State.Inv { s with requests := waiting } :=
  ⟨hs.legal, hs.bounded, hs.answered⟩

/-- Settles O56: an idle step changes nothing, and any other serves one operation, which keeps the invariant. -/
theorem stepKeepsTheInvariant : Obligations.StepKeepsTheInvariant := by
  intro s t hs h
  rcases step_next h with ⟨-, rfl⟩ | ⟨r, rest, i, -, -, he⟩
  · exact hs
  · exact exec_keeps_inv (hs.withRequests rest) he

/-- Settles O57: an empty buffer fits any capacity, and every other field is at its named value. -/
theorem resetMeetsTheInvariant : Obligations.ResetMeetsTheInvariant :=
  ⟨⟨rfl, Memory.wf_reset, rfl⟩, rfl⟩

end Sys2Proof.Machine
end

section
/-! Offsets (spec 20_memory.md R46 to R50, R53): where the bytes of a frame and of RXBUF stand, what an append and a
truncation make of them, and the order in which operations and requests are served. -/

namespace Sys2Proof.Machine

variable {i : Instr} {s t : State}

/-! ### Bytes at offsets -/

theorem Memory.byteAt_append_left {m : Memory} {k : Nat} (h : k < m.length) (d : Memory) :
    (m.append d).byteAt k = m.byteAt k := by
  simp only [Memory.byteAt_eq, Memory.append_eq, List.getElem?_append_left h]

theorem Memory.byteAt_append_right (m d : Memory) (k : Nat) : (m.append d).byteAt (m.length + k) = d.byteAt k := by
  simp only [Memory.byteAt_eq, Memory.append_eq, List.getElem?_append_right (Nat.le_add_right _ k),
    Nat.add_sub_cancel_left]

theorem Memory.byteAt_dropFront (m : Memory) (c k : Nat) : (m.dropFront c).byteAt k = m.byteAt (k + c) := by
  simp only [Memory.byteAt_eq, Memory.dropFront_eq, List.getElem?_drop, Nat.add_comm]

/-- Behind a frame's four leading bytes stands its payload, and behind that its checksum (R49). -/
theorem frameBytes_byteAt_four_add (h k t : Byte) (p : List Byte) (j : Nat) :
    Memory.byteAt (frameBytes h k t p) (4 + j) = Memory.byteAt (Memory.append p [checksum t p]) j :=
  Memory.byteAt_append_right [h, k, t, BitVec.ofNat 8 p.length] (p ++ [checksum t p]) j

theorem frameBytes_byteAt_payload (h k t : Byte) {p : List Byte} {j : Nat} (hj : j < p.length) :
    Memory.byteAt (frameBytes h k t p) (4 + j) = p[j]? :=
  (frameBytes_byteAt_four_add ..).trans (Memory.byteAt_append_left hj _)

theorem frameBytes_byteAt_checksum (h k t : Byte) (p : List Byte) :
    Memory.byteAt (frameBytes h k t p) (4 + p.length) = some (checksum t p) :=
  (frameBytes_byteAt_four_add ..).trans (Memory.byteAt_append_right p [checksum t p] 0)

/-- Settles O17: the operation returns `frameBytes` of its operands, whose offsets the lemmas above name. -/
theorem frameOffsetMap : Obligations.FrameOffsetMap := by
  intro header command typeId payload s short
  have served : Served (.encFrame header command typeId payload) s :=
    ⟨(payloadFits_iff payload).mpr short, by simp, by simp⟩
  have size : (frameBytes header command typeId payload).length = 5 + payload.length := frameBytes_length ..
  exact ⟨frameBytes header command typeId payload, exec_served served, size, by omega, by omega, rfl, rfl, rfl,
    ⟨_, rfl, ofNat_length_toNat short⟩, fun _ hj => frameBytes_byteAt_payload _ _ _ hj,
    frameBytes_byteAt_checksum ..⟩

/-! ### RX_APPEND and RX_SCAN -/

/-- Settles O22: an append that goes through leaves RXBUF with the data at its back. -/
theorem appendKeepsOffsets : Obligations.AppendKeepsOffsets := by
  intro data s t h
  obtain ⟨-, rfl⟩ := exec_next h
  refine ⟨fun k hk => Memory.byteAt_append_left hk data, Memory.byteAt_append_right s.rxbuf data,
    List.length_append, ?_⟩
  rintro rfl
  exact List.append_nil _

/-- RX_SCAN is served in every state: it reports the scan and drops the bytes the scan consumed (R130). -/
theorem exec_rxScan (s : State) : exec .rxScan s =
    .next ((s.setRxbuf (s.rxbuf.dropFront (scan s.params.minAvail s.rxbuf).consumed)).respond
      (.scan (scan s.params.minAvail s.rxbuf))) :=
  exec_served ⟨rfl, by simp, by simp⟩

/-- Inversion: the result RX_SCAN reports is the scan of the buffer, and its `consumed` bytes are gone. -/
theorem exec_rxScan_next {r : ScanResult} (h : exec .rxScan s = .next t) (hr : t.response = .scan r) :
    scan s.params.minAvail s.rxbuf = r ∧ t = (s.setRxbuf (s.rxbuf.dropFront r.consumed)).respond (.scan r) := by
  obtain ⟨-, rfl⟩ := exec_next h
  obtain rfl := Response.scan.inj hr
  exact ⟨rfl, rfl⟩

/-- Settles O24: a found frame lies within the buffer, and the truncation drops exactly what was consumed. -/
theorem truncationRenumbersOffsets : Obligations.TruncationRenumbersOffsets := by
  intro s t f c h hr
  obtain ⟨found, rfl⟩ := exec_rxScan_next h hr
  obtain ⟨counted, within⟩ := scan_frame_consumed found
  have left : (s.rxbuf.dropFront c).length + c = s.rxbuf.length := by
    rw [Memory.dropFront_eq, List.length_drop, Nat.sub_add_cancel within]
  exact ⟨counted, within, left, Memory.byteAt_dropFront s.rxbuf c⟩

/-- Settles O25: with nothing consumed the buffer is the same, and so is its scan. -/
theorem scanWithoutFrameIsIdempotent : Obligations.ScanWithoutFrameIsIdempotent := by
  intro s t r h hr noFrame
  obtain ⟨found, rfl⟩ := exec_rxScan_next h hr
  obtain ⟨consumed, -⟩ := ScanResult.fields_of_no_frame noFrame
  have same : s.rxbuf.dropFront r.consumed = s.rxbuf := by rw [consumed]; rfl
  refine ⟨same, consumed, ?_⟩
  rw [exec_rxScan]
  simp only [State.respond_rxbuf, State.setRxbuf_rxbuf, State.respond_params, State.setRxbuf_params, same, found]
  rfl

/-! ### The order of operations and requests -/

/-- No operation reads the response of the one before, and a served one overwrites it. -/
theorem exec_withResponse (r : Response) (h : exec i s = .next t) : exec i { s with response := r } = .next t := by
  obtain ⟨⟨inRange, assigned, appends⟩, rfl⟩ := exec_next h
  have served : Served i { s with response := r } := ⟨inRange, assigned, appends⟩
  rw [exec_served served]
  cases i <;> rfl

/-- Settles O19: TX writes its response alone, which the other operation does not read, and TX itself gives the same
response in every state. -/
theorem txAndRxCommute : Obligations.TxAndRxCommute := by
  intro i j s t u htx _ hi hj
  obtain ⟨onlyResponse, everywhere⟩ := txIsPure i s t htx hi
  refine ⟨u, { u with response := t.response }, ?_, everywhere u, rfl, rfl, rfl, rfl, ?_⟩
  · rw [onlyResponse]
    exact exec_withResponse t.response hj
  · rw [onlyResponse]

theorem exec_keeps_params (h : exec i s = .next t) : t.params = s.params := by
  obtain ⟨-, rfl⟩ := exec_next h
  rfl

/-- Settles O5: it is the step's rule for a request that decodes. -/
theorem stepServesTheOldestRequest : Obligations.StepServesTheOldestRequest :=
  fun _ _ _ _ => step_serves

/-- Settles O55: an idle step has no request to take, and any other serves the oldest one by an operation that touches
neither the requests behind it nor the parameters. -/
theorem stepTakesOneRequestInOrder : Obligations.StepTakesOneRequestInOrder := by
  intro s t h
  rcases step_next h with ⟨idle, rfl⟩ | ⟨r, rest, i, waiting, -, he⟩
  · simp [idle]
  · exact ⟨by rw [exec_keeps_requests he, waiting]; rfl, (exec_keeps_params he).trans rfl⟩

end Sys2Proof.Machine
end

section
/-! The request decoder (spec 30_encoding.md R72; 10_state.md R25, R26): the operation each code selects, what a decoded
operation can be, and the round trip. -/

namespace Sys2Proof.Machine

variable {i : Instr} {r : Request} {op : OpCode}

/-! ### The payload a record carries -/

theorem takePayload_carried (h : r.plen.toNat ≤ r.payload.length) :
    takePayload r = .ok (r.payload.take r.plen.toNat) :=
  if_pos h

/-- Inversion: the payload of a record is counted by its 8-bit `plen`, so it is one a frame can declare (R25). -/
theorem takePayload_ok {p : List Byte} (h : takePayload r = .ok p) : payloadFits p = true := by
  by_cases carried : r.plen.toNat ≤ r.payload.length
  · obtain rfl := Except.ok.inj ((takePayload_carried carried).symm.trans h)
    rw [payloadFits_iff, List.length_take]
    have := r.plen.isLt
    omega
  · rw [takePayload_short (Nat.not_le.mp carried)] at h
    cases h

/-- Inversion: an operation made of a record's payload is made of one that fits. -/
theorem map_takePayload_ok {f : List Byte → Instr} (h : (takePayload r).map f = .ok i) :
    ∃ p, payloadFits p = true ∧ f p = i := by
  cases carried : takePayload r with
  | error why => rw [carried] at h; cases h
  | ok p => rw [carried] at h; exact ⟨p, takePayload_ok carried, Except.ok.inj h⟩

/-! ### The operation a code selects (R72) -/

theorem isReservedOp_iff : isReservedOp op = true ↔ op ∈ [6#4, 7#4, 11#4, 12#4, 13#4, 14#4] := by
  revert op
  decide

/-- Ten codes are assigned and the other six are reserved (R72). -/
theorem op_assigned_or_reserved : ∀ op : OpCode,
    op ∈ [0#4, 1#4, 2#4, 3#4, 4#4, 5#4, 8#4, 9#4, 10#4, 15#4] ∨ isReservedOp op = true := by
  decide

/-- With the code known, decoding computes, whatever the operand fields are. -/
theorem decode_of_op (h : r.op = op) : decode r = decode { r with op := op } := by
  subst h
  rfl

theorem decode_encFrame (h : r.op = 0#4) :
    decode r = (takePayload r).map (.encFrame r.header r.command r.typeId) := decode_of_op h

theorem decode_encGet (h : r.op = 1#4) : decode r = .ok (.encGet r.typeId) := decode_of_op h

theorem decode_encSetf (h : r.op = 2#4) : decode r = .ok (.encSetf r.typeId r.fbits) := decode_of_op h

theorem decode_encSetb (h : r.op = 3#4) : decode r = .ok (.encSetb r.typeId r.bval) := decode_of_op h

theorem decode_encSession (h : r.op = 4#4) : decode r = .ok (.encSession r.opening) := decode_of_op h

theorem decode_cksum (h : r.op = 5#4) : decode r = (takePayload r).map (.cksum r.typeId) := decode_of_op h

theorem decode_rxAppend (h : r.op = 8#4) : decode r = .ok (.rxAppend r.data) := decode_of_op h

theorem decode_rxScan (h : r.op = 9#4) : decode r = .ok .rxScan := decode_of_op h

theorem decode_rxDrain (h : r.op = 10#4) : decode r = .ok .rxDrain := decode_of_op h

theorem decode_reset (h : r.op = 15#4) : decode r = .ok .reset := decode_of_op h

theorem decode_reservedOp (h : isReservedOp r.op = true) : decode r = .ok (.reservedOp r.op) := by
  have code := isReservedOp_iff.mp h
  simp only [List.mem_cons, List.not_mem_nil, or_false] at code
  rcases code with code | code | code | code | code | code <;>
    exact (decode_of_op code).trans (congrArg (Except.ok ∘ Instr.reservedOp) code.symm)

theorem decode_encFrame_carried (h : r.op = 0#4) (carried : r.plen.toNat ≤ r.payload.length) :
    decode r = .ok (.encFrame r.header r.command r.typeId (r.payload.take r.plen.toNat)) := by
  rw [decode_encFrame h, takePayload_carried carried]
  rfl

theorem decode_cksum_carried (h : r.op = 5#4) (carried : r.plen.toNat ≤ r.payload.length) :
    decode r = .ok (.cksum r.typeId (r.payload.take r.plen.toNat)) := by
  rw [decode_cksum h, takePayload_carried carried]
  rfl

/-- Bit 3 of the code is 0 for the operations of unit TX (R72). -/
theorem bit3_tx (h k t : Byte) (p : List Byte) (f : FloatBits) (v : Int) (o : Bool) :
    ∀ i ∈ [.encFrame h k t p, .encGet t, .encSetf t f, .encSetb t v, .encSession o, .cksum t p],
      (opCode i).getLsbD 3 = false := by
  simp only [List.forall_mem_cons, opCode]
  decide

/-- Bit 3 of the code is 1 for the operations of unit RX and for RESET (R72). -/
theorem bit3_rx (data : List Byte) :
    ∀ i ∈ [.rxAppend data, .rxScan, .rxDrain, .reset], (opCode i).getLsbD 3 = true := by
  simp only [List.forall_mem_cons, opCode]
  decide

/-! ### What a record decodes to -/

/-- Inversion: an operation that decodes has the record's code, and operands that fit a record. -/
theorem decode_ok (hd : decode r = .ok i) : i.wellFormed = true ∧ opCode i = r.op := by
  rcases op_assigned_or_reserved r.op with assigned | reserved
  · simp only [List.mem_cons, List.not_mem_nil, or_false] at assigned
    rcases assigned with h | h | h | h | h | h | h | h | h | h
    · rw [decode_encFrame h] at hd
      obtain ⟨p, fits, rfl⟩ := map_takePayload_ok hd
      exact ⟨fits, h.symm⟩
    · cases (decode_encGet h).symm.trans hd; exact ⟨rfl, h.symm⟩
    · cases (decode_encSetf h).symm.trans hd; exact ⟨rfl, h.symm⟩
    · cases (decode_encSetb h).symm.trans hd; exact ⟨rfl, h.symm⟩
    · cases (decode_encSession h).symm.trans hd; exact ⟨rfl, h.symm⟩
    · rw [decode_cksum h] at hd
      obtain ⟨p, fits, rfl⟩ := map_takePayload_ok hd
      exact ⟨fits, h.symm⟩
    · cases (decode_rxAppend h).symm.trans hd; exact ⟨rfl, h.symm⟩
    · cases (decode_rxScan h).symm.trans hd; exact ⟨rfl, h.symm⟩
    · cases (decode_rxDrain h).symm.trans hd; exact ⟨rfl, h.symm⟩
    · cases (decode_reset h).symm.trans hd; exact ⟨rfl, h.symm⟩
  · cases (decode_reservedOp reserved).symm.trans hd
    exact ⟨reserved, rfl⟩

/-- No two well-formed operations share a record: decoding it gives back each of them. -/
theorem encode_injective {j : Instr} (hi : i.wellFormed = true) (hj : j.wellFormed = true)
    (same : encode i = encode j) : i = j := by
  have decoded := decode_encode hi
  rw [same, decode_encode hj] at decoded
  exact (Except.ok.inj decoded).symm

/-! ### The statements -/

/-- Settles O3: it is the round trip assembled from the per-operation family. -/
theorem decodeOfEncodedOperation : Obligations.DecodeOfEncodedOperation :=
  fun _ => decode_encode

/-- Settles O1: one decoder equation per code, and bit 3 of the code names the unit. -/
theorem operationCodesSelectOperations : Obligations.OperationCodesSelectOperations := by
  refine ⟨fun r => ⟨decode_encFrame_carried, decode_encGet, decode_encSetf, decode_encSetb, decode_encSession,
    decode_cksum_carried, decode_rxAppend, decode_rxScan, decode_rxDrain, decode_reset, fun reserved =>
      ⟨decode_reservedOp (isReservedOp_iff.mpr reserved), fun _ => rfl⟩⟩,
    fun h k t p f v o i hi => ?_, fun data i hi => ?_⟩
  · have bit := bit3_tx h k t p f v o i hi
    exact ⟨bit, by rw [isTx, bit]; rfl⟩
  · have bit := bit3_rx data i hi
    exact ⟨bit, by rw [isTx, bit]; rfl⟩

/-- Settles O4: the decoder's inversion, and injectivity by the round trip. -/
theorem decodedOperationIsWellFormed : Obligations.DecodedOperationIsWellFormed :=
  ⟨fun _ _ => decode_ok, fun _ _ => encode_injective⟩

/-- Settles O2: each record has the code of the decoder equation that gives its operation. -/
theorem sampleRequestsDecode : Obligations.SampleRequestsDecode :=
  ⟨decode_encFrame_carried rfl (by decide), decode_encGet rfl, decode_encSetb rfl, decode_rxAppend rfl,
    decode_reservedOp (by decide)⟩

end Sys2Proof.Machine
end

section
/-! The checksum (spec 40_checksum.md R90 to R94): CKSUM, the accumulators that compute it, the changes it does not see,
and the frames that carry it. -/

namespace Sys2Proof.Machine

variable {i : Instr} {s : State} {m : Config.MinAvail}

/-! ### CKSUM -/

/-- CKSUM refuses a payload that no length byte can count (R158, D13). -/
theorem exec_cksum_long (t : Byte) {p : List Byte} (long : 255 < p.length) (s : State) :
    exec (.cksum t p) s = .refused (.payloadTooLong p.length) :=
  if_neg (mt (payloadFits_iff p).mp (Nat.not_le.mpr long))

/-- The checksum of an empty payload is type_id (R90). -/
theorem checksum_nil (t : Byte) : checksum t [] = t := by
  apply BitVec.eq_of_toNat_eq
  rw [checksum_toNat]
  exact Nat.mod_eq_of_lt t.isLt

/-- Settles O8: the one response is the model's checksum, whose value `checksum_toNat` gives. -/
theorem cksumIsSumModulo256 : Obligations.CksumIsSumModulo256 := by
  intro t p
  refine ⟨rfl, fun short => ⟨checksum t p, fun s => ?_, checksum_toNat t p, ?_⟩, exec_cksum_long t⟩
  · exact exec_served ⟨(payloadFits_iff p).mpr short, by simp, by simp⟩
  · rintro rfl
    exact checksum_nil t

/-! ### Accumulators -/

/-- A `w`-bit accumulator loses whole multiples of `2 ^ w` and nothing else, from whatever value it starts (R91). -/
theorem foldl_add_setWidth_toNat {w : Nat} (bytes : List Byte) (start : BitVec w) :
    (bytes.foldl (fun acc b => acc + b.setWidth w) start).toNat = (start.toNat + byteSum bytes) % 2 ^ w := by
  induction bytes generalizing start with
  | nil => exact (Nat.mod_eq_of_lt start.isLt).symm
  | cons b bytes ih =>
    rw [List.foldl_cons, ih, BitVec.toNat_add, BitVec.toNat_setWidth, Nat.add_mod_mod, Nat.mod_add_mod, byteSum_cons,
      Nat.add_assoc]

theorem accumulate8_toNat (bytes : List Byte) : (accumulate8 bytes).toNat = byteSum bytes % 256 := by
  simpa [accumulate8] using foldl_add_setWidth_toNat bytes (0 : BitVec 8)

theorem accumulate16_toNat (bytes : List Byte) : (accumulate16 bytes).toNat = byteSum bytes % 65536 := by
  simpa [accumulate16] using foldl_add_setWidth_toNat bytes (0 : BitVec 16)

/-- The bytes the checksum covers add up to the sum of R90, before it is reduced. -/
theorem byteSum_covered (t : Byte) {p : List Byte} (short : p.length ≤ 255) :
    byteSum (t :: BitVec.ofNat 8 p.length :: p) = t.toNat + p.length + byteSum p := by
  rw [byteSum_cons, byteSum_cons, ofNat_length_toNat short, Nat.add_assoc]

/-- Settles O9: the order does not change the sum, and by `byteSum_le` 16 bits hold it. -/
theorem accumulatorsGiveTheChecksum : Obligations.AccumulatorsGiveTheChecksum := by
  intro t p summed short arranged
  have sum : byteSum summed = t.toNat + p.length + byteSum p :=
    (byteSum_perm arranged).trans (byteSum_covered t short)
  have exact16 : (accumulate16 summed).toNat = byteSum summed := by
    have := byteSum_le p
    have := t.isLt
    rw [accumulate16_toNat]
    omega
  refine ⟨?_, ?_, exact16.trans sum⟩ <;> apply BitVec.eq_of_toNat_eq
  · rw [accumulate8_toNat, checksum_toNat, sum]
  · rw [BitVec.toNat_setWidth, exact16, checksum_toNat, sum]

/-! ### What the checksum does not see (R93) -/

theorem checksum_perm (t : Byte) {p q : List Byte} (h : p.Perm q) : checksum t p = checksum t q :=
  checksum_congr (by rw [h.length_eq, byteSum_perm h])

theorem checksum_exchange (t u : Byte) (p q : List Byte) : checksum t (p ++ u :: q) = checksum u (p ++ t :: q) := by
  apply checksum_congr
  simp only [List.length_append, List.length_cons, byteSum_append, byteSum_cons]
  congr 1
  omega

/-- Raising one byte by `d` and lowering another by `d` changes their sum by a multiple of 256 only. -/
theorem toNat_add_add_toNat_sub_mod (a b d : Byte) :
    ((a + d).toNat + (b - d).toNat) % 256 = (a.toNat + b.toNat) % 256 := by
  rw [BitVec.toNat_add, BitVec.toNat_sub]
  omega

theorem checksum_compensated (t a b d : Byte) (p q r : List Byte) :
    checksum t (p ++ a :: (q ++ b :: r)) = checksum t (p ++ (a + d) :: (q ++ (b - d) :: r)) := by
  have pair := toNat_add_add_toNat_sub_mod a b d
  apply checksum_congr
  simp only [List.length_append, List.length_cons, byteSum_append, byteSum_cons]
  omega

/-- Settles O10: the three forms of change, each by the sum it leaves. -/
theorem checksumMissesCompensatedChanges : Obligations.ChecksumMissesCompensatedChanges :=
  ⟨fun t _ _ => checksum_perm t, checksum_exchange, checksum_compensated⟩

/-! ### Valid frames (R94) -/

theorem validFrame_frameBytes {h : Byte} (header : h = 0xF0 ∨ h = 0xF1) (k t : Byte) {p : List Byte}
    (short : p.length ≤ 255) : validFrame (frameBytes h k t p) = true :=
  Bool.and_eq_true_iff.mpr ⟨(isHeader_iff h).mpr header, wellFramed_frameBytes h k t short⟩

/-- Inversion: bytes that a served operation returns are a frame of ENC_FRAME's operands, or one with header 0xF1 from
a convenience operation (R105). -/
theorem responseOf_bytes {out : List Byte} (inRange : operandsInRange i = true) (h : responseOf i s = .bytes out) :
    ∃ header k t p, p.length ≤ 255 ∧ out = frameBytes header k t p ∧
      (i = .encFrame header k t p ∨ (∀ h' k' t' p', i ≠ .encFrame h' k' t' p') ∧ header = 0xF1) := by
  cases i with
  | encFrame header k t p =>
    exact ⟨header, k, t, p, (payloadFits_iff p).mp inRange, (Response.bytes.inj h).symm, .inl rfl⟩
  | encGet | encSetf | encSetb | encSession =>
    exact ⟨_, _, _, _, Nat.le_of_ble_eq_true rfl, (Response.bytes.inj h).symm, .inr ⟨nofun, rfl⟩⟩
  | cksum | rxAppend | rxScan | rxDrain | reset | reservedOp => cases h

/-- Settles O16: the returned bytes are `frameBytes` of a payload that fits, under the header of the operation. -/
theorem encodedBytesAreFramed : Obligations.EncodedBytesAreFramed := by
  intro i s t out he hout _
  obtain ⟨served, rfl⟩ := exec_next he
  obtain ⟨header, k, ty, p, short, rfl, source⟩ := responseOf_bytes served.inRange hout
  have size := frameBytes_length header k ty p
  refine ⟨wellFramed_frameBytes _ _ _ short, by omega, by omega, ?_, ?_⟩
  · rintro h' k' ty' p' rfl
    rcases source with same | ⟨other, -⟩
    · cases same
      exact ⟨rfl, fun valid => validFrame_frameBytes valid _ _ short⟩
    · exact absurd rfl (other h' k' ty' p')
  · intro other
    rcases source with rfl | ⟨-, rfl⟩
    · exact absurd rfl (other header k ty p)
    · exact ⟨rfl, validFrame_frameBytes (.inr rfl) _ _ short⟩

/-- The zero-length pattern is the frame of an empty payload (R93 (e)). -/
theorem frameBytes_nil (h k t : Byte) : frameBytes h k t [] = [h, k, t, 0x00, t] := by
  rw [frameBytes_eq, checksum_nil]
  rfl

/-- A frame at the front of a buffer is what the scan returns, with no garbage before it (R125). -/
theorem scan_frame_at_front {tail : List Byte} {f : Frame} (enough : m.toNat ≤ (f.toBytes ++ tail).length)
    (scanned : f.scanned = true) : scan m (f.toBytes ++ tail) = .frame f (5 + f.payload.length) := by
  have found := scan_frame_of (x := []) (by simp [rejectsAll]) enough scanned
  simpa using found

/-- Settles O50: the pattern is an encoded frame, so it is valid and found at the front. -/
theorem zeroLengthPatternIsAlwaysAFrame : Obligations.ZeroLengthPatternIsAlwaysAFrame := by
  refine ⟨fun h k t header => ?_, fun m h k t tail header enough => ?_⟩
  · rw [← frameBytes_nil]
    exact validFrame_frameBytes header k t (Nat.zero_le _)
  · rw [← frameBytes_nil]
    refine scan_frame_at_front (f := ⟨h, k, t, []⟩) ?_ ((Frame.scanned_iff _).mpr ⟨header, Nat.zero_le _⟩)
    rwa [List.length_append, Frame.toBytes_length]

end Sys2Proof.Machine
end

section
/-! The codec (spec 41_codec.md R100 to R108): the bytes each encode operation returns, that every TX operation returns
a result, and the round trip of a frame through the scanner. -/

namespace Sys2Proof.Machine

variable {i : Instr} {m : Config.MinAvail} {buf : Memory}

/-! ### Every TX operation is served (R106) -/

/-- Operands that fit a request record are in range (R14, R25). -/
theorem operandsInRange_of_wellFormed (h : i.wellFormed = true) : operandsInRange i = true := by
  cases i with
  | encFrame | cksum => exact h
  | encGet | encSetf | encSetb | encSession | rxAppend | rxScan | rxDrain | reset | reservedOp => rfl

theorem tx_served_of_wellFormed (htx : isTx i = true) (hw : i.wellFormed = true)
    (assigned : ∀ op, i ≠ .reservedOp op) (s : State) : Served i s where
  inRange := operandsInRange_of_wellFormed hw
  assigned := assigned
  appends := by
    rintro d rfl
    simp at htx

/-- The response of an assigned TX operation is bytes or a checksum, never none. -/
theorem tx_response_ne_none (htx : isTx i = true) (assigned : ∀ op, i ≠ .reservedOp op) (s : State) :
    responseOf i s ≠ .none := by
  cases i with
  | encFrame | encGet | encSetf | encSetb | encSession | cksum => exact nofun
  | rxAppend | rxScan | rxDrain | reset => simp at htx
  | reservedOp op => exact absurd rfl (assigned op)

/-- Settles O20: the operation is served in every state, with the response it has in the reset state. -/
theorem txIsTotal : Obligations.TxIsTotal :=
  fun _ htx hw assigned => ⟨_, tx_response_ne_none htx assigned .reset,
    tx_exec htx (tx_served_of_wellFormed htx hw assigned .reset)⟩

/-! ### ENC_FRAME -/

theorem exec_encFrame (h k t : Byte) {p : List Byte} (short : p.length ≤ 255) (s : State) :
    exec (.encFrame h k t p) s = .next { s with response := .bytes (frameBytes h k t p) } :=
  exec_served ⟨(payloadFits_iff p).mpr short, by simp, by simp⟩

/-- ENC_FRAME refuses a payload that no length byte can count (R158, D13). -/
theorem exec_encFrame_long (h k t : Byte) {p : List Byte} (long : 255 < p.length) (s : State) :
    exec (.encFrame h k t p) s = .refused (.payloadTooLong p.length) :=
  if_neg (mt (payloadFits_iff p).mp (Nat.not_le.mpr long))

/-- Settles O11: the two bytes the layout computes are the payload's length and the checksum. -/
theorem encFrameReturnsTheLayout : Obligations.EncFrameReturnsTheLayout :=
  fun h k t p => ⟨rfl, fun short => ⟨BitVec.ofNat 8 p.length, checksum t p, exec_encFrame h k t short,
    ofNat_length_toNat short, checksum_toNat t p⟩, exec_encFrame_long h k t⟩

/-! ### The convenience operations -/

/-- The checksum is the wrapping sum of type_id, the length and the payload's bytes (R90, R91). -/
theorem checksum_eq_foldl (t : Byte) (p : List Byte) :
    checksum t p = p.foldl (· + ·) (t + BitVec.ofNat 8 p.length) := by
  apply BitVec.eq_of_toNat_eq
  have sum := foldl_add_setWidth_toNat p (t + BitVec.ofNat 8 p.length)
  simp only [BitVec.setWidth_eq] at sum
  rw [sum, checksum_toNat, BitVec.toNat_add, BitVec.toNat_ofNat, Nat.add_mod_mod, Nat.mod_add_mod]

/-- The frame of a payload of one byte, which ENC_GET, ENC_SETB and ENC_SESSION return (R68). -/
theorem frameBytes_singleton (h k t v : Byte) : frameBytes h k t [v] = [h, k, t, 0x01, v, t + 1 + v] := by
  rw [frameBytes_eq, checksum_eq_foldl]
  rfl

theorem exec_encGet (t : Byte) (s : State) :
    exec (.encGet t) s = .next { s with response := .bytes (frameBytes 0xF1 0xA1 t [0x00]) } :=
  exec_served ⟨rfl, nofun, nofun⟩

theorem exec_encSetf (t : Byte) (f : FloatBits) (s : State) :
    exec (.encSetf t f) s = .next { s with response := .bytes (frameBytes 0xF1 0xB1 t (floatPayload f)) } :=
  exec_served ⟨rfl, nofun, nofun⟩

theorem exec_encSetb (t : Byte) (v : Int) (s : State) :
    exec (.encSetb t v) s = .next { s with response := .bytes (frameBytes 0xF1 0xB1 t [lowByte v]) } :=
  exec_served ⟨rfl, nofun, nofun⟩

theorem exec_encSession (o : Bool) (s : State) :
    exec (.encSession o) s =
      .next { s with response := .bytes (frameBytes 0xF1 0xC1 0x00 [if o then 0x01 else 0x00]) } :=
  exec_served ⟨rfl, nofun, nofun⟩

/-- Settles O12: adding the payload's zero leaves `type_id + 1` as the checksum. -/
theorem encGetReturnsTheGetFrame : Obligations.EncGetReturnsTheGetFrame := by
  intro t s
  refine ⟨rfl, ?_⟩
  rw [exec_encGet, frameBytes_singleton, add_zero]

/-- Settles O13: the layout of `floatPayload`, with the checksum written as a sum of bytes. -/
theorem encSetfReturnsLittleEndianFloat : Obligations.EncSetfReturnsLittleEndianFloat := by
  intro t f s
  refine ⟨rfl, ?_⟩
  rw [exec_encSetf, frameBytes_eq, checksum_eq_foldl]
  rfl

/-- Settles O14: the byte sent is `lowByte`, the floor modulus. -/
theorem encSetbKeepsTheLowByte : Obligations.EncSetbKeepsTheLowByte := by
  intro t v
  refine ⟨rfl, lowByte v, fun s => ?_, lowByte_toNat v, lowByte_of_original⟩
  rw [exec_encSetb, frameBytes_singleton]

/-- Settles O15: the two one-byte frames of ENC_SESSION. -/
theorem encSessionReturnsTheSessionFrame : Obligations.EncSessionReturnsTheSessionFrame := by
  intro s
  refine ⟨rfl, rfl, ?_, ?_⟩ <;> rw [exec_encSession, frameBytes_singleton] <;> rfl

/-! ### Round trip (R108) -/

theorem scan_frameBytes {h : Byte} (header : h = 0xF0 ∨ h = 0xF1) (k t : Byte) {p : List Byte}
    (short : p.length ≤ 255) (enough : m.toNat ≤ 5 + p.length) :
    scan m (frameBytes h k t p) = .frame ⟨h, k, t, p⟩ (5 + p.length) := by
  have scanned := (Frame.scanned_iff ⟨h, k, t, p⟩).mpr ⟨header, short⟩
  have found := scan_frame_at_front (m := m) (tail := []) (by simpa [Frame.toBytes_length] using enough) scanned
  rwa [List.append_nil] at found

/-- A buffer with fewer than MIN_AVAIL bytes is EXHAUSTED at offset 0 (R121). -/
theorem scan_short (few : buf.length < m.toNat) : scan m buf = .exhausted :=
  scan_of_examine (x := []) (by simp [rejectsAll]) (examine_short few)

/-- No frame starts at offset 0 when the byte there is no header value (R122). -/
theorem scan_frame_behind_notHeader {b : Byte} {f : Frame} {c : Nat} (notHeader : b ≠ 0xF0 ∧ b ≠ 0xF1)
    (found : scan m (b :: buf) = .frame f c) : 5 + f.payload.length < c := by
  obtain ⟨x, tail, bytes, -, -, scanned, rfl⟩ := scan_frame found
  cases x with
  | nil =>
    obtain ⟨rfl, -⟩ := List.cons.inj bytes
    obtain ⟨header, -⟩ := f.scanned_iff.mp scanned
    exact absurd header (not_or.mpr notHeader)
  | cons g x =>
    rw [List.length_cons]
    omega

/-- Settles O38: the three cases are a frame at the front, too few bytes, and a first byte that is no header value. -/
theorem encodedFrameScansBack : Obligations.EncodedFrameScansBack := by
  intro m h k t p short
  refine ⟨fun header => scan_frameBytes header k t short, ?_, fun hIn hOut f c => ?_⟩
  · rintro six rfl
    exact scan_short (by rw [six]; exact Nat.lt_add_one 5)
  · exact scan_frame_behind_notHeader ⟨hIn, hOut⟩

/-- A finite BUF_CAP is legal when it holds one longest frame (R6). -/
theorem params_legal_iff (p : Config.Params) : p.legal = true ↔ ∀ cap, p.bufCap = some cap → 260 ≤ cap := by
  unfold Config.Params.legal
  cases p.bufCap with
  | none => simp
  | some cap =>
    simp only [Option.some.injEq, forall_eq']
    exact decide_eq_true_iff

/-- A legal BUF_CAP has room for one frame in an empty buffer (R6, R67). -/
theorem appendFits_frameBytes {s : State} (empty : s.rxbuf = []) (legal : s.params.legal = true) (h k t : Byte)
    {p : List Byte} (short : p.length ≤ 255) : appendFits (frameBytes h k t p) s = true := by
  rw [appendFits, empty, Memory.wf_iff]
  intro cap hcap
  have room : 260 ≤ cap := (params_legal_iff s.params).mp legal cap hcap
  have size := frameBytes_length h k t p
  rw [Memory.append_eq, List.nil_append]
  omega

theorem exec_rxAppend {d : List Byte} {s : State} (room : appendFits d s = true) :
    exec (.rxAppend d) s = .next ((s.setRxbuf (s.rxbuf.append d)).respond .none) :=
  exec_served ⟨rfl, nofun, by rintro d' ⟨⟩; exact room⟩

/-- Scanning one frame alone in RXBUF returns it and empties RXBUF. -/
theorem exec_rxScan_frameBytes {h : Byte} (header : h = 0xF0 ∨ h = 0xF1) (k t : Byte) {p : List Byte} {s : State}
    (short : p.length ≤ 255) (enough : s.params.minAvail.toNat ≤ 5 + p.length)
    (alone : s.rxbuf = frameBytes h k t p) : exec .rxScan s =
      .next { s with rxbuf := [], response := .scan (.frame ⟨h, k, t, p⟩ (5 + p.length)) } := by
  have found := scan_frameBytes header k t short enough
  have emptied : (frameBytes h k t p).drop (5 + p.length) = [] := List.drop_eq_nil_of_le (frameBytes_length ..).le
  rw [exec_rxScan, alone, found, ScanResult.consumed, Memory.dropFront_eq, emptied]
  rfl

/-- Settles O39: the three operations in turn, each from the state the one before leaves. -/
theorem loopBackRun : Obligations.LoopBackRun := by
  intro h k t p s header short enough empty legal
  obtain ⟨rxbuf, requests, response, params⟩ := s
  obtain rfl : rxbuf = [] := empty
  have encoded := exec_encFrame h k t short ⟨[], requests, response, params⟩
  have appended := exec_rxAppend (appendFits_frameBytes
    (s := ⟨[], requests, .bytes (frameBytes h k t p), params⟩) rfl legal h k t short)
  have scanned := exec_rxScan_frameBytes (s := ⟨frameBytes h k t p, requests, .none, params⟩)
    header k t short enough rfl
  exact ⟨frameBytes h k t p, observe_cons_eq_next.mpr ⟨_, _, encoded, observe_cons_eq_next.mpr ⟨_, _, appended,
    observe_cons_eq_next.mpr ⟨_, [], scanned, rfl, rfl⟩, rfl⟩, rfl⟩⟩

end Sys2Proof.Machine
end

section
/-! Where a scan ends and what it returns there (spec 42_scanner.md R120 to R128, R132): a run of rejected offsets, and
the one that decides. -/

namespace Sys2Proof.Machine

variable {m : Config.MinAvail} {buf x v : Memory} {b : Byte} {stop : Stop}

/-! ### The earliest valid candidate -/

/-- Settles O37: the frame a scan returns is the accepted candidate behind the rejected offsets, and such a candidate is
what the scan returns. -/
theorem frameIsTheEarliestValidCandidate : Obligations.FrameIsTheEarliestValidCandidate := by
  intro m buf f c
  constructor
  · intro found
    obtain ⟨x, tail, bytes, rejected, enough, scanned, counted⟩ := scan_frame found
    obtain ⟨header, short⟩ := f.scanned_iff.mp scanned
    rw [List.length_append, Frame.toBytes_length] at enough
    exact ⟨x, tail, bytes, rejected, header, short, enough, counted⟩
  · rintro ⟨x, tail, rfl, rejected, header, short, enough, rfl⟩
    rw [List.append_assoc]
    refine scan_frame_of (f := f) rejected ?_ (f.scanned_iff.mpr ⟨header, short⟩)
    rwa [List.length_append, Frame.toBytes_length]

/-! ### Rejected offsets -/

/-- An offset is rejected with MIN_AVAIL bytes from it only (S1 comes first, R155). -/
theorem enough_of_reject {w : Memory} (h : examine m w = none) : m.toNat ≤ w.length := by
  obtain ⟨_, _, _, _, _, -, enough, -⟩ := examine_none_iff.mp h
  exact enough

/-- The last offset of a rejected run had MIN_AVAIL bytes from it (R121). -/
theorem enough_of_rejectsAll (h : rejectsAll m x v) : x = [] ∨ m.toNat ≤ v.length + 1 := by
  rcases List.eq_nil_or_concat x with rfl | ⟨y, b, rfl⟩
  · exact .inl rfl
  · have enough := enough_of_reject (h y.length (by simp))
    rw [List.concat_append, List.drop_left] at enough
    exact .inr enough

/-- A rejected offset behind a rejected run makes the run one longer. -/
theorem rejectsAll_concat (h : rejectsAll m x (b :: v)) (hb : examine m (b :: v) = none) :
    rejectsAll m (x ++ [b]) v := by
  intro j hj
  rw [List.append_assoc, List.singleton_append]
  rcases Nat.lt_succ_iff_lt_or_eq.mp (by simpa using hj) with before | rfl
  · exact h j before
  · rwa [List.drop_left]

/-- Bytes free of header values are rejected, with MIN_AVAIL bytes behind them (R122, R136). -/
theorem rejectsAll_of_headerFree (h : ∀ b ∈ x, isHeader b = false) (enough : m.toNat ≤ v.length) :
    rejectsAll m x v := by
  intro j hj
  have bytes : (x ++ v).drop j = x[j] :: (x.drop (j + 1) ++ v) := by
    rw [List.drop_append_of_le_length hj.le, List.drop_eq_getElem_cons hj, List.cons_append]
  rw [bytes]
  refine examine_notHeader ?_ (h _ (List.getElem_mem hj))
  rw [List.length_cons, List.length_append]
  omega

/-! ### The offset where the scan ends -/

/-- `scan_split` with the offset of the stop. -/
theorem scan_stop (m : Config.MinAvail) (buf : Memory) : ∃ x v stop, buf = x ++ v ∧ rejectsAll m x v ∧
    examine m v = some stop ∧ scan m buf = stop.result x.length ∧ stopOffset m buf = x.length := by
  obtain ⟨x, v, stop, rfl, rejected, decides, result⟩ := scan_split m buf
  exact ⟨x, v, stop, rfl, rejected, decides, result, stopOffset_of_examine rejected decides⟩

/-- A scan ends behind every run of rejected offsets. -/
theorem le_stopOffset (h : rejectsAll m x v) : x.length ≤ stopOffset m (x ++ v) := by
  rw [stopOffset, walk_rejects 0 h, walk_shift]
  omega

/-- Settles O32: the rejected offsets are those of the run in front of the stop, and the last of them had MIN_AVAIL
bytes. -/
theorem rejectedOffsetsAreBounded : Obligations.RejectedOffsetsAreBounded := by
  intro m buf
  obtain ⟨x, v, stop, rfl, rejected, decides, -, ends⟩ := scan_stop m buf
  rw [ends, List.drop_left, List.length_append]
  refine ⟨?_, by omega, rejected, by simp [decides]⟩
  rcases enough_of_rejectsAll rejected with rfl | enough
  · exact Nat.zero_le _
  · omega

/-! ### EXHAUSTED and NEED_MORE -/

theorem Stop.result_eq_exhausted_iff {i : Nat} : stop.result i = .exhausted ↔ stop = .exhausted := by
  cases stop <;> simp [Stop.result]

theorem Stop.result_eq_needMore_iff {i : Nat} : stop.result i = .needMore ↔ stop = .needMore := by
  cases stop <;> simp [Stop.result]

/-- A scan without enough bytes behind the rejected offsets is EXHAUSTED, and no other is (R121). -/
theorem scan_eq_exhausted_iff : scan m buf = .exhausted ↔
    ∃ x v, buf = x ++ v ∧ rejectsAll m x v ∧ v.length < m.toNat := by
  constructor
  · intro h
    obtain ⟨x, v, stop, rfl, rejected, decides, result⟩ := scan_split m buf
    obtain rfl := Stop.result_eq_exhausted_iff.mp (result.symm.trans h)
    exact ⟨x, v, rfl, rejected, examine_exhausted_iff.mp decides⟩
  · rintro ⟨x, v, rfl, rejected, few⟩
    exact scan_of_examine rejected (examine_short few)

/-- A scan with an incomplete candidate behind the rejected offsets is NEED_MORE, and no other is (R124). -/
theorem scan_eq_needMore_iff : scan m buf = .needMore ↔
    ∃ x v, buf = x ++ v ∧ rejectsAll m x v ∧ examine m v = some .needMore := by
  constructor
  · intro h
    obtain ⟨x, v, stop, rfl, rejected, decides, result⟩ := scan_split m buf
    obtain rfl := Stop.result_eq_needMore_iff.mp (result.symm.trans h)
    exact ⟨x, v, rfl, rejected, decides⟩
  · rintro ⟨x, v, rfl, rejected, decides⟩
    exact scan_of_examine rejected decides

/-- Settles O31: the scan ends at the first offset that is not rejected, which is EXHAUSTED when too few bytes remain
from it. -/
theorem exhaustedWhenTooFewBytesRemain : Obligations.ExhaustedWhenTooFewBytesRemain := by
  refine ⟨fun m buf => ⟨fun h j hj => ?_, fun h => ?_⟩, fun m buf h => ?_, fun m buf => scan_short⟩
  · obtain ⟨x, v, rfl, rejected, few⟩ := scan_eq_exhausted_iff.mp h
    rw [List.length_append] at hj
    exact rejected j (by omega)
  · obtain ⟨x, v, stop, rfl, rejected, decides, -⟩ := scan_split m buf
    refine scan_eq_exhausted_iff.mpr ⟨x, v, rfl, rejected, Nat.lt_of_not_le fun enough => ?_⟩
    have rejectedToo := h x.length (by rw [List.length_append]; omega)
    rw [List.drop_left, decides] at rejectedToo
    cases rejectedToo
  · obtain ⟨x, v, rfl, rejected, few⟩ := scan_eq_exhausted_iff.mp h
    rw [stopOffset_of_examine rejected (examine_short few), List.length_append]
    rcases enough_of_rejectsAll rejected with rfl | enough
    · simp only [List.length_nil]
      omega
    · omega

/-- Settles O36: what stands behind the rejected offsets is an incomplete candidate. -/
theorem incompleteCandidateStopsTheScan : Obligations.IncompleteCandidateStopsTheScan := by
  intro m buf
  rw [scan_eq_needMore_iff]
  constructor
  · rintro ⟨x, v, rfl, rejected, decides⟩
    obtain ⟨h, k, t, l, body, rfl, enough, header, incomplete⟩ := examine_needMore_iff.mp decides
    simp only [List.length_cons] at enough incomplete
    refine ⟨x, h, k, t, l, body, rfl, rejected, (isHeader_iff h).mp header, by omega, ?_⟩
    simp only [List.length_append, List.length_cons]
    omega
  · rintro ⟨x, h, k, t, l, body, rfl, rejected, header, enough, incomplete⟩
    simp only [List.length_append, List.length_cons] at incomplete
    refine ⟨x, _, rfl, rejected, examine_needMore_iff.mpr ⟨h, k, t, l, body, rfl, ?_, (isHeader_iff h).mpr header, ?_⟩⟩
    all_goals
      simp only [List.length_cons]
      omega

/-! ### Steps of one byte -/

theorem isHeader_eq_false_iff (b : Byte) : isHeader b = false ↔ b ≠ 0xF0 ∧ b ≠ 0xF1 := by
  rw [← Bool.not_eq_true, isHeader_iff, not_or]

/-- Settles O34: such a first byte is rejected, and the scan goes on behind it. -/
theorem nonHeaderByteIsSkipped : Obligations.NonHeaderByteIsSkipped :=
  fun _ b _ enough hIn hOut =>
    scan_cons_of_reject (examine_notHeader enough ((isHeader_eq_false_iff b).mpr ⟨hIn, hOut⟩))

/-- A complete candidate with a wrong checksum byte is rejected, whatever its first byte is (R126). -/
theorem examine_mismatch {h k t l ck : Byte} {payload rest : List Byte}
    (enough : m.toNat ≤ (h :: k :: t :: l :: (payload ++ ck :: rest)).length) (declared : payload.length = l.toNat)
    (wrong : ck ≠ checksum t payload) : examine m (h :: k :: t :: l :: (payload ++ ck :: rest)) = none := by
  refine examine_none_iff.mpr ⟨h, k, t, l, _, rfl, enough, .inr ⟨?_, ?_⟩⟩
  · simp only [List.length_cons, List.length_append]
    omega
  · simpa [← declared] using wrong

/-- Settles O35: a mismatch rejects the candidate's first offset alone. -/
theorem mismatchStepsOneByte : Obligations.MismatchStepsOneByte :=
  fun _ _ _ _ _ _ _ _ enough declared wrong => scan_cons_of_reject (examine_mismatch enough declared wrong)

end Sys2Proof.Machine
end

section
/-! The scan as R120 prints it: the loop over offsets into the whole buffer, and the resuming scan of R134, turn by
turn. -/

namespace Sys2Proof.Machine

variable {m : Config.MinAvail} {buf x v w : Memory}

/-! ### One turn at an offset -/

/-- One turn of the scan that starts at an offset: it ends there, or goes on from the next offset. -/
theorem scanResuming_eq (m : Config.MinAvail) (i : Nat) (buf : Memory) : scanResuming m i buf =
    (examine m (buf.drop i)).elim (scanResuming m (i + 1) buf) (Stop.result i) := by
  cases turn : examine m (buf.drop i) with
  | some stop => rw [scanResuming, walk_of_some i turn, Option.elim_some]
  | none =>
    obtain ⟨h, k, t, l, body, bytes, -⟩ := examine_none_iff.mp turn
    have next : buf.drop (i + 1) = k :: t :: l :: body := by rw [← List.tail_drop, bytes, List.tail_cons]
    rw [bytes] at turn
    rw [scanResuming, bytes, walk_of_none i turn, ← next, Option.elim_none, scanResuming]

theorem byteOr0_add_of_drop {i : Nat} (h : buf.drop i = w) (j : Nat) : byteOr0 buf (i + j) = byteOr0 w j := by
  rw [← h, byteOr0, byteOr0, Memory.byteAt_eq, Memory.byteAt_eq, List.getElem?_drop]

/-- Reading a byte that is there (R46). -/
theorem byteOr0_eq_iff {j : Nat} (h : j < w.length) (b : Byte) : byteOr0 w j = b ↔ w[j]? = some b := by
  simp [byteOr0, Memory.byteAt_eq, h]

/-- One turn of the printed loop, on the bytes from its offset: the bytes it reads are the candidate's own (R123). -/
theorem scanLoop_of_bytes {turns i : Nat} {h k t l : Byte} {body : List Byte}
    (bytes : buf.drop i = h :: k :: t :: l :: body) (enough : m.toNat ≤ 4 + body.length) :
    scanLoop m buf (turns + 1) i =
      if isHeader h = false then scanLoop m buf turns (i + 1)
      else if body.length < l.toNat + 1 then .needMore
      else if body[l.toNat]? = some (checksum t (body.take l.toNat)) then
        (Stop.accept ⟨h, k, t, body.take l.toNat⟩).result i
      else scanLoop m buf turns (i + 1) := by
  have b0 : byteOr0 buf i = h := byteOr0_add_of_drop bytes 0
  have b1 : byteOr0 buf (i + 1) = k := byteOr0_add_of_drop bytes 1
  have b2 : byteOr0 buf (i + 2) = t := byteOr0_add_of_drop bytes 2
  have b3 : byteOr0 buf (i + 3) = l := byteOr0_add_of_drop bytes 3
  have behind : buf.drop (i + 4) = body := by rw [← List.drop_drop, bytes]; rfl
  have b4 := byteOr0_add_of_drop behind l.toNat
  have payload : buf.read (i + 4) l.toNat = body.take l.toNat := by rw [Memory.read_eq, behind]
  have remain : buf.length - i = 4 + body.length := by
    rw [← List.length_drop, bytes]
    simp only [List.length_cons]
    omega
  have notHeader : h ≠ Config.hdrInput ∧ h ≠ Config.hdrOutput ↔ isHeader h = false := (isHeader_eq_false_iff h).symm
  have incomplete : i + 5 + l.toNat > buf.length ↔ body.length < l.toNat + 1 := by omega
  rw [scanLoop, if_neg (by omega), b0, b1, b2, b3, b4, payload]
  simp only [notHeader, incomplete]
  by_cases short : body.length < l.toNat + 1
  · simp only [if_pos short]
  · simp only [if_neg short, byteOr0_eq_iff (w := body) (j := l.toNat) (by omega), Stop.result, Config.frameOverhead,
      List.length_take_of_le (by omega : l.toNat ≤ body.length)]

/-- One turn of the printed loop is one turn of the scan: S1, S2, S4, S5 decide the same on the bytes from the
offset. -/
theorem scanLoop_succ (m : Config.MinAvail) (buf : Memory) (turns i : Nat) : scanLoop m buf (turns + 1) i =
    (examine m (buf.drop i)).elim (scanLoop m buf turns (i + 1)) (Stop.result i) := by
  by_cases few : (buf.drop i).length < m.toNat
  · rw [examine_short few, scanLoop, if_pos (List.length_drop ▸ few)]
    rfl
  obtain ⟨h, k, t, l, body, bytes, enough⟩ := four_of_enough (Nat.not_lt.mp few)
  rw [scanLoop_of_bytes bytes enough]
  rw [bytes] at few ⊢
  cases header : isHeader h with
  | false => rw [examine_notHeader (Nat.not_lt.mp few) header, if_pos rfl, Option.elim_none]
  | true =>
    rw [examine_header enough header, if_neg (by decide)]
    split_ifs <;> rfl

/-- With turns to spare the loop ends as the scan that starts at the same offset does. -/
theorem scanLoop_eq_scanResuming {turns i : Nat} (h : buf.length < i + turns) :
    scanLoop m buf turns i = scanResuming m i buf := by
  induction turns generalizing i with
  | zero =>
    have few : (buf.drop i).length < m.toNat := by
      have := minAvail_ge m
      rw [List.length_drop]
      omega
    rw [scanResuming_eq, examine_short few]
    rfl
  | succ turns ih => rw [scanLoop_succ, scanResuming_eq, ih (by omega)]

/-- Settles O30: the scan is the one that starts at offset 0, and the loop has a turn for every offset. -/
theorem scanIsTheOffsetLoop : Obligations.ScanIsTheOffsetLoop :=
  fun _ _ => (scanLoop_eq_scanResuming (by omega)).symm

/-! ### Resuming behind dead offsets -/

/-- A scan that starts behind rejected offsets gives the result of the scan from 0 (R134). -/
theorem scan_eq_scanResuming (h : rejectsAll m x v) : scan m (x ++ v) = scanResuming m x.length (x ++ v) := by
  rw [scan, walk_rejects 0 h, Nat.zero_add, scanResuming, List.drop_left]

/-- Settles O43: the offsets below the stop stay rejected when bytes are appended. -/
theorem deadPrefixMayBeSkipped : Obligations.DeadPrefixMayBeSkipped := by
  intro m b d _
  obtain ⟨x, v, stop, rfl, rejected, -, -, ends⟩ := scan_stop m b
  have stays := rejectsAll_append d rejected
  rw [ends, List.append_assoc]
  exact ⟨stays, scan_eq_scanResuming stays⟩

end Sys2Proof.Machine
end

section
/-! Bytes that arrive later, noise and corruption (spec 42_scanner.md R133 to R138): what a longer buffer keeps of a
scan, when the frame behind garbage is found, and where the two settings of MIN_AVAIL part. -/

namespace Sys2Proof.Machine

variable {m : Config.MinAvail} {x v w : Memory} {f : Frame}

/-! ### Bytes that arrive later -/

/-- Settles O40: neither the rejections in front of the frame nor its acceptance can be undone. -/
theorem foundFrameIsStableUnderAppend : Obligations.FoundFrameIsStableUnderAppend := by
  intro m b d f c found
  obtain ⟨x, tail, rfl, rejected, enough, scanned, rfl⟩ := scan_frame found
  have stays := rejectsAll_append d rejected
  rw [List.append_assoc] at stays
  rw [List.append_assoc, List.append_assoc]
  refine scan_frame_of stays ?_ scanned
  rw [← List.append_assoc, List.length_append]
  omega

/-- A complete candidate is accepted with the payload it declares, or rejected (S5, R125, R126). -/
theorem examine_complete {h k t l : Byte} {body : List Byte} (enough : m.toNat ≤ 4 + body.length)
    (header : isHeader h = true) (complete : l.toNat < body.length) :
    (∃ f : Frame, f.payload.length = l.toNat ∧ examine m (h :: k :: t :: l :: body) = some (.accept f)) ∨
      examine m (h :: k :: t :: l :: body) = none := by
  rw [examine_header enough header, if_neg (by omega)]
  split_ifs with matching
  · exact .inl ⟨_, List.length_take_of_le complete.le, rfl⟩
  · exact .inr rfl

/-- Settles O41: the candidate behind the rejected offsets is examined again on the longer buffer, and its bytes say
whether it is still incomplete. -/
theorem stalledCandidateIsTestedAgain : Obligations.StalledCandidateIsTestedAgain := by
  intro m b d stalled
  obtain ⟨x, v, rfl, rejected, decides⟩ := scan_eq_needMore_iff.mp stalled
  obtain ⟨h, k, t, l, body, rfl, enough, header, -⟩ := examine_needMore_iff.mp decides
  have stays := rejectsAll_append d rejected
  simp only [List.length_cons] at enough
  rw [stopOffset_of_examine rejected decides, List.append_assoc, List.length_append]
  refine ⟨l, Memory.byteAt_append_right x _ 3, stays, fun incomplete => ?_, fun complete => ?_⟩
  · have waits : examine m (h :: k :: t :: l :: body ++ d) = some .needMore := by
      refine examine_needMore_iff.mpr ⟨h, k, t, l, body ++ d, rfl, ?_, header, by omega⟩
      simp only [List.length_append, List.length_cons]
      omega
    exact ⟨scan_of_examine stays waits, stopOffset_of_examine stays waits⟩
  · simp only [List.cons_append, List.length_cons, List.length_append] at complete stays ⊢
    have room : m.toNat ≤ 4 + (body ++ d).length ∧ l.toNat < (body ++ d).length := by
      rw [List.length_append]
      omega
    rcases examine_complete (k := k) (t := t) room.1 header room.2 with ⟨f, declared, accepted⟩ | rejectedToo
    · refine .inl ⟨f, ?_⟩
      rw [scan_of_examine stays accepted, Stop.result, Config.frameOverhead, declared]
    · have past := le_stopOffset (rejectsAll_concat stays rejectedToo)
      rw [List.append_assoc, List.length_append] at past
      exact .inr past

/-! ### The frame behind garbage -/

/-- Settles O44: a frame returned with this count stands at this offset, behind rejected offsets, and a frame behind
rejected offsets is returned. -/
theorem resynchronizationCondition : Obligations.ResynchronizationCondition := by
  intro m x f header short enough
  constructor
  · intro found
    obtain ⟨y, tail, bytes, rejected, -, -, counted⟩ := scan_frame found
    rw [Frame.toBytes_length] at counted
    rw [List.append_assoc] at bytes
    obtain ⟨rfl, same⟩ := List.append_inj bytes (by omega)
    rwa [same]
  · intro rejected
    have found := scan_frame_of (tail := []) (by rwa [List.append_nil]) (by rwa [List.append_nil])
      (f.scanned_iff.mpr ⟨header, short⟩)
    rwa [List.append_nil, Nat.add_assoc, ← Frame.toBytes_length] at found

/-- Settles O45: every offset of such garbage is rejected for the byte at it. -/
theorem headerFreeNoiseIsTolerated : Obligations.HeaderFreeNoiseIsTolerated := by
  intro m g tail f free header short enough
  have rejected := rejectsAll_of_headerFree (fun b hb => (isHeader_eq_false_iff b).mpr (free b hb)) enough
  rw [scan_frame_of rejected enough (f.scanned_iff.mpr ⟨header, short⟩), Frame.toBytes_length, Nat.add_assoc]

/-! ### The two settings of MIN_AVAIL -/

/-- With six bytes from an offset the settings decide the same there. -/
theorem examine_five_eq_six (h : 6 ≤ w.length) : examine .five w = examine .six w := by
  obtain ⟨h', k, t, l, body, rfl, enough⟩ := four_of_enough (m := .six) h
  have enough5 : Config.MinAvail.five.toNat ≤ 4 + body.length := (Nat.le_succ 5).trans enough
  cases header : isHeader h' with
  | false =>
    rw [examine_notHeader (m := .five) ((Nat.le_succ 5).trans h) header, examine_notHeader (m := .six) h header]
  | true => rw [examine_header enough5 header, examine_header enough header]

/-- What 6 rejects, 5 rejects. -/
theorem rejectsAll_five_of_six (h : rejectsAll .six x v) : rejectsAll .five x v :=
  fun j hj => (examine_five_eq_six (enough_of_reject (h j hj))).trans (h j hj)

/-- The settings part only where exactly five bytes remain behind offsets that both reject. -/
theorem five_remain_of_settings_differ {buf : Memory} (differ : scan .five buf ≠ scan .six buf) :
    ∃ x v, buf = x ++ v ∧ rejectsAll .six x v ∧ v.length = 5 := by
  obtain ⟨x, v, stop, rfl, rejected, decides, result⟩ := scan_split .six buf
  have rejected5 := rejectsAll_five_of_six rejected
  refine ⟨x, v, rfl, rejected, ?_⟩
  rcases Nat.lt_trichotomy v.length 5 with few | five | six
  · have few6 : v.length < Config.MinAvail.six.toNat := few.trans (Nat.lt_succ_self 5)
    exact absurd ((scan_of_examine rejected5 (examine_short few)).trans
      (scan_of_examine rejected (examine_short few6)).symm) differ
  · exact five
  · exact absurd ((scan_of_examine rejected5 ((examine_five_eq_six six).trans decides)).trans result.symm) differ

/-- Five bytes that are accepted are the pattern of an empty payload (R93 (e)). -/
theorem five_bytes_accepted (five : w.length = 5) (accepted : examine m w = some (.accept f)) :
    ∃ header k t, f = ⟨header, k, t, []⟩ ∧ (header = 0xF0 ∨ header = 0xF1) ∧ w = [header, k, t, 0, t] := by
  obtain ⟨-, scanned, tail, rfl⟩ := examine_accept_iff.mp accepted
  rw [List.length_append, Frame.toBytes_length] at five
  have noPayload : f.payload = [] := List.length_eq_zero_iff.mp (by omega)
  obtain rfl : tail = [] := List.length_eq_zero_iff.mp (by omega)
  obtain ⟨header, -⟩ := f.scanned_iff.mp scanned
  obtain ⟨h, k, t, payload⟩ := f
  obtain rfl : payload = [] := noPayload
  exact ⟨h, k, t, rfl, header, by rw [List.append_nil, Frame.toBytes, frameBytes_nil]⟩

/-- Settles O48: 6 is EXHAUSTED at the last five bytes, so 5 must stop there too, at an incomplete candidate or a frame
of five bytes. -/
theorem minAvailSettingsDifferOnlyAtTheEnd : Obligations.MinAvailSettingsDifferOnlyAtTheEnd := by
  intro buf differ
  obtain ⟨x, v, rfl, rejected, five⟩ := five_remain_of_settings_differ differ
  have rejected5 := rejectsAll_five_of_six rejected
  have exhausted6 : scan .six (x ++ v) = .exhausted :=
    scan_of_examine rejected (examine_short (five.trans_lt (Nat.lt_succ_self 5)))
  rw [exhausted6] at differ ⊢
  obtain ⟨h, k, t, l, body, rfl, -⟩ := four_of_enough (m := .five) five.ge
  obtain ⟨c, rfl⟩ := List.length_eq_one_iff.mp (by simpa using five)
  cases decides : examine .five [h, k, t, l, c] with
  | none =>
    exact absurd (scan_eq_exhausted_iff.mpr
      ⟨x ++ [h], [k, t, l, c], by simp, rejectsAll_concat rejected5 decides, Nat.lt_succ_self 4⟩) differ
  | some stop =>
    have result := scan_of_examine rejected5 decides
    cases stop with
    | exhausted => exact absurd result differ
    | needMore =>
      obtain ⟨_, _, _, _, _, same, -, header, incomplete⟩ := examine_needMore_iff.mp decides
      cases same
      refine ⟨x, h, k, t, l, c, rfl, rejected, (isHeader_iff h).mp header, rfl, .inl ⟨?_, result⟩⟩
      rintro rfl
      exact absurd incomplete (by simp)
    | accept f =>
      obtain ⟨_, _, _, rfl, header, same⟩ := five_bytes_accepted rfl decides
      cases same
      have size : (x ++ [h, k, t, 0, t]).length = x.length + 5 := List.length_append
      rw [size]
      refine ⟨x, h, k, t, 0, t, rfl, rejected, header, rfl, .inr ⟨rfl, rfl, result, fun b d => ?_⟩⟩
      have accepted : examine .six ([h, k, t, 0, t] ++ b :: d) = some (.accept ⟨h, k, t, []⟩) :=
        (examine_five_eq_six (by simp)).symm.trans (examine_accept_append (b :: d) decides)
      rw [List.append_assoc]
      exact scan_of_examine (rejectsAll_append (b :: d) rejected) accepted

end Sys2Proof.Machine
end

section
/-! The operations of unit RX (spec 42_scanner.md R129 to R131, R133): RX_APPEND, RX_SCAN and RX_DRAIN, and how a drain
depends on the chunks the bytes came in. -/

namespace Sys2Proof.Machine

variable {m : Config.MinAvail} {s t : State} {data : List Byte}

/-! ### RX_APPEND -/

/-- An append fits when its result is within BUF_CAP, and always when that is unbounded (R129). -/
theorem appendFits_iff :
    appendFits data s = true ↔ ∀ cap, s.params.bufCap = some cap → s.rxbuf.length + data.length ≤ cap := by
  simp only [appendFits, Memory.wf_iff, Memory.append_eq, List.length_append]

/-- Past a finite BUF_CAP an append is refused whole (R129, R158, D3). -/
theorem exec_rxAppend_full {cap : Nat} (finite : s.params.bufCap = some cap)
    (full : cap < s.rxbuf.length + data.length) :
    exec (.rxAppend data) s = .refused (.bufferFull (s.rxbuf.length + data.length) cap) := by
  simp only [exec, execRxAppend, finite, if_pos full]

/-- Settles O21: the two outcomes of the capacity test. -/
theorem rxAppendAddsAtTheBack : Obligations.RxAppendAddsAtTheBack :=
  fun _ _ => ⟨rfl, fun room => exec_rxAppend (appendFits_iff.mpr room), fun _ => exec_rxAppend_full⟩

/-! ### RX_SCAN -/

/-- Without a frame RX_SCAN writes its response alone (R130, R46). -/
theorem exec_rxScan_no_frame {r : ScanResult} (h : scan s.params.minAvail s.rxbuf = r) (noFrame : r.status ≠ .frame) :
    exec .rxScan s = .next { s with response := .scan r } := by
  obtain ⟨consumed, -⟩ := ScanResult.fields_of_no_frame noFrame
  rw [exec_rxScan, h, consumed]
  rfl

/-- Settles O23: by the result of the scan, which reads neither the response nor anything else a first RX_SCAN
wrote. -/
theorem rxScanTruncatesOnFrame : Obligations.RxScanTruncatesOnFrame := by
  refine fun s => ⟨rfl, fun f c found => ?_, fun r kind found => ?_⟩
  · rw [exec_rxScan, found]
    rfl
  · have noFrame : r.status ≠ .frame := by rcases kind with rfl | rfl <;> exact nofun
    exact ⟨exec_rxScan_no_frame found noFrame, exec_rxScan_no_frame found noFrame⟩

/-! ### RX_DRAIN -/

/-- RX_DRAIN is served in every state (R131). -/
theorem exec_rxDrain (s : State) : exec .rxDrain s =
    .next ((s.setRxbuf (drain s.params.minAvail s.rxbuf).rest).respond
      (.drain (drain s.params.minAvail s.rxbuf).frames (drain s.params.minAvail s.rxbuf).status)) :=
  rfl

/-- A drain counts five bytes for each frame at least, and no byte the buffer does not hold (R48, R131). -/
theorem drain_counts_le (m : Config.MinAvail) (buf : Memory) :
    5 * (drain m buf).frames.length ≤ ((drain m buf).frames.map Prod.snd).sum ∧
      ((drain m buf).frames.map Prod.snd).sum ≤ buf.length := by
  induction buf using drain_induction m with
  | exhausted buf h => rw [drain_exhausted h]; exact ⟨le_rfl, Nat.zero_le _⟩
  | needMore buf h => rw [drain_needMore h]; exact ⟨le_rfl, Nat.zero_le _⟩
  | frame buf f c h ih =>
    have counted := scan_frame_consumed h
    rw [drain_frame h]
    simp only [List.length_cons, List.map_cons, List.sum_cons, Memory.dropFront_eq, List.length_drop] at ih ⊢
    omega

/-- At most `floor(n / 5)` frames come out of a drain (R131). -/
theorem drain_frames_length_le (m : Config.MinAvail) (buf : Memory) : (drain m buf).frames.length ≤ buf.length / 5 := by
  have counts := drain_counts_le m buf
  omega

/-- The status of a drain is that of a scan of what it leaves (R131). -/
theorem drain_status (m : Config.MinAvail) (buf : Memory) :
    (scan m (drain m buf).rest).status = (drain m buf).status := by
  induction buf using drain_induction m with
  | exhausted buf h => rw [drain_exhausted h, h]; rfl
  | needMore buf h => rw [drain_needMore h, h]; rfl
  | frame buf f c h ih => rw [drain_frame h]; exact ih

/-- The form of a drain's response, taken apart (R26, R131). -/
theorem drain_wf_iff {frames : List (Frame × Nat)} {status : Status} : (Response.drain frames status).wf = true ↔
    (∀ fc ∈ frames, fc.1.scanned = true ∧ 5 + fc.1.payload.length ≤ fc.2) ∧ status ≠ .frame := by
  simp only [Response.wf, Bool.and_eq_true, List.all_eq_true, decide_eq_true_eq, bne_iff_ne]

/-- Settles O26: the drain's own equations for the three results of a scan. -/
theorem rxDrainRepeatsTheScan : Obligations.RxDrainRepeatsTheScan := by
  refine fun s => ⟨rfl, _, _, _, drain_frames_length_le s.params.minAvail s.rxbuf, exec_rxDrain s, fun h => ?_,
    fun h => ?_, fun f c h => ?_⟩
  · rw [drain_exhausted h]
    exact ⟨rfl, rfl, rfl⟩
  · rw [drain_needMore h]
    exact ⟨rfl, rfl, rfl⟩
  · rw [drain_frame h]
    exact ⟨_, exec_rxDrain _, rfl⟩

/-- Settles O27: the drain's laws, on the response and the buffer RX_DRAIN leaves. -/
theorem drainIsBoundedAndComplete : Obligations.DrainIsBoundedAndComplete := by
  intro s t frames status h hr
  obtain ⟨-, rfl⟩ := exec_next h
  obtain ⟨rfl, rfl⟩ := Response.drain.inj hr
  obtain ⟨counted, noFrame⟩ := drain_wf_iff.mp (drain_response_wf s.params.minAvail s.rxbuf)
  refine ⟨noFrame, drain_status _ _, drain_frames_length_le _ _, drain_rest_eq_drop _ _, (drain_counts_le _ _).2,
    fun f c found => ?_⟩
  obtain ⟨scanned, count⟩ := counted (f, c) found
  exact ⟨(Bool.and_eq_true_iff.mp scanned).1, count⟩

/-! ### Chunks -/

/-- Draining early changes nothing: a drain of the longer buffer is the drain of its front and then of what that left
with the rest behind it (R133). -/
theorem drain_append (m : Config.MinAvail) (buf d : Memory) : drain m (buf ++ d) =
    ⟨(drain m buf).frames ++ (drain m ((drain m buf).rest ++ d)).frames, (drain m ((drain m buf).rest ++ d)).status,
      (drain m ((drain m buf).rest ++ d)).rest⟩ := by
  induction buf using drain_induction m with
  | exhausted buf h => rw [drain_exhausted h]; rfl
  | needMore buf h => rw [drain_needMore h]; rfl
  | frame buf f c h ih =>
    obtain ⟨-, within⟩ := scan_frame_consumed h
    have front : (buf ++ d).dropFront c = buf.dropFront c ++ d := List.drop_append_of_le_length within
    rw [drain_frame (foundFrameIsStableUnderAppend m buf d f c h), front, ih, drain_frame h]
    rfl

/-- A shorter buffer has room for fewer bytes too. -/
theorem appendFits_of_length_le {u : State} {data' : List Byte} (h : appendFits data s = true)
    (params : u.params = s.params) (shorter : u.rxbuf.length + data'.length ≤ s.rxbuf.length + data.length) :
    appendFits data' u = true := by
  rw [appendFits_iff] at h ⊢
  exact fun cap finite => shorter.trans (h cap (params ▸ finite))

/-- An append and a drain, as the first two operations of a run (R14, R129, R131). -/
theorem observe_append_drain {is : List Instr} {results : List Response} {u : State} {left : Drained}
    (room : appendFits data s = true) (drained : drain s.params.minAvail (s.rxbuf ++ data) = left)
    (h : observe is ((s.setRxbuf left.rest).respond (.drain left.frames left.status)) = .next (results, u)) :
    observe (.rxAppend data :: .rxDrain :: is) s =
      .next (.none :: .drain left.frames left.status :: results, u) := by
  subst drained
  exact observe_cons_eq_next.mpr ⟨_, _, exec_rxAppend room,
    observe_cons_eq_next.mpr ⟨_, _, exec_rxDrain _, h, rfl⟩, rfl⟩

/-- Settles O42: `drain_append` on the buffer with both chunks, and what a drain leaves has room for the second one. -/
theorem chunkingDoesNotMatter : Obligations.ChunkingDoesNotMatter := by
  intro a d s room
  have together := drain_append s.params.minAvail (s.rxbuf ++ a) d
  rw [List.append_assoc] at together
  have size := congrArg List.length (drain_rest_eq_drop s.params.minAvail (s.rxbuf ++ a))
  rw [List.length_drop, List.length_append] at size
  have roomA : appendFits a s = true := appendFits_of_length_le room rfl (by rw [List.length_append]; omega)
  refine ⟨_, _, _, _, _, observe_append_drain roomA rfl (observe_append_drain ?_ rfl rfl),
    observe_append_drain room together rfl⟩
  refine appendFits_of_length_le room rfl ?_
  rw [State.respond_rxbuf, State.setRxbuf_rxbuf, List.length_append, size]
  omega

/-! ### What unit RX reads -/

/-- What an operation of unit RX or RESET does is a function of RXBUF and the parameters (R120, R52). -/
theorem rx_effect {i : Instr} (hrx : isTx i = false) {u : State} (rxbuf : u.rxbuf = s.rxbuf)
    (params : u.params = s.params) : bufferEffect i u = bufferEffect i s ∧ responseOf i u = responseOf i s := by
  cases i with
  | rxAppend | rxScan | rxDrain | reset => simp only [bufferEffect, responseOf, rxbuf, params, and_self]
  | encFrame | encGet | encSetf | encSetb | encSession | cksum => simp [isTx, opCode] at hrx
  | reservedOp op => exact ⟨rxbuf, rfl⟩

/-- Settles O54: it is served from the other state too, and its effect is the same there. -/
theorem rxDependsOnTheBufferAlone : Obligations.RxDependsOnTheBufferAlone := by
  intro i s t u hrx h rxbuf params
  obtain ⟨⟨inRange, assigned, appends⟩, rfl⟩ := exec_next h
  have served : Served i u :=
    ⟨inRange, assigned, fun d append => appendFits_of_length_le (appends d append) params (by rw [rxbuf])⟩
  obtain ⟨effect, response⟩ := rx_effect hrx rxbuf params
  rw [exec_served served, effect, response]
  rfl

end Sys2Proof.Machine
end

section
/-! What ends an operation or an offset (spec 60_exceptions.md R150 to R158): the inputs that are refused, that no
operation faults, and the order of the tests the scan makes at one offset. -/

namespace Sys2Proof.Machine

variable {i : Instr} {s : State}

/-! ### Refusals -/

theorem exec_reservedOp (op : OpCode) (s : State) : exec (.reservedOp op) s = .refused (.reservedOp op) := rfl

/-- Settles O7: a reserved code decodes to the reserved operation, which is refused in every state. -/
theorem reservedCodesAreRefused : Obligations.ReservedCodesAreRefused := by
  intro s r rest waiting code
  have reserved : isReservedOp r.op = true := isReservedOp_iff.mpr (by simpa using code)
  rw [step_serves waiting (decode_reservedOp reserved)]
  exact ⟨exec_reservedOp r.op _, exec_reservedOp r.op s⟩

theorem not_served_of_refused {r : Refusal} (h : exec i s = .refused r) : ¬ Served i s := by
  intro served
  rw [exec_served served] at h
  cases h

/-- The block raises nothing: `Fault` has no constructor, so no operation can answer a fault (R150, R151). -/
theorem exec_ne_fault (r : Fault) : exec i s ≠ .fault r := nofun

/-- Settles O53: what is refused is not served, `exec_not_served` names the input and the refusal, and each such input
is refused by that name. -/
theorem onlyTheListedInputsAreRefused : Obligations.OnlyTheListedInputsAreRefused := by
  refine fun i s => ⟨exec_ne_fault, fun r => ⟨fun refused => ?_, ?_⟩⟩
  · rcases exec_not_served (not_served_of_refused refused) with
      ⟨h, k, t, p, rfl, long, named⟩ | ⟨t, p, rfl, long, named⟩ | ⟨data, cap, rfl, finite, full, named⟩ |
      ⟨op, rfl, named⟩
    all_goals obtain rfl := Host.Outcome.refused.inj (refused.symm.trans named)
    · exact .inl ⟨h, k, t, p, rfl, long, rfl⟩
    · exact .inr (.inl ⟨t, p, rfl, long, rfl⟩)
    · exact .inr (.inr (.inl ⟨data, cap, rfl, finite, full, rfl⟩))
    · exact .inr (.inr (.inr ⟨op, rfl, rfl⟩))
  · rintro (⟨h, k, t, p, rfl, long, rfl⟩ | ⟨t, p, rfl, long, rfl⟩ | ⟨data, cap, rfl, finite, full, rfl⟩ |
      ⟨op, rfl, rfl⟩)
    · exact exec_encFrame_long h k t long s
    · exact exec_cksum_long t long s
    · exact exec_rxAppend_full finite full
    · exact exec_reservedOp op s

/-! ### The tests at one offset -/

/-- Settles O51: S1 and S2 end the turn by themselves; at a header value with enough bytes, the turn is the test S4 and
then S5 (`examine_header`). -/
theorem testsAreMadeInFixedOrder : Obligations.TestsAreMadeInFixedOrder := by
  refine fun m w => ⟨examine_short, ?_⟩
  rintro h k t l body rfl enough
  refine ⟨fun hIn hOut => examine_notHeader enough ((isHeader_eq_false_iff h).mpr ⟨hIn, hOut⟩),
    fun header incomplete =>
      examine_needMore_iff.mpr ⟨h, k, t, l, body, rfl, enough, (isHeader_iff h).mpr header, incomplete⟩,
    fun header complete => ?_⟩
  simp only [List.length_cons] at enough complete
  rw [examine_header (by omega) ((isHeader_iff h).mpr header), if_neg (by omega)]
  exact ⟨fun matching => if_pos matching, fun differs => if_neg differs⟩

end Sys2Proof.Machine
end

section
/-! Reset, start-up and hazards (spec 70_reset_and_hazards.md R170 to R178): what RESET leaves, the frames of the Session's
start-up and close, and what a stray header value or a changed header makes of a scan. -/

namespace Sys2Proof.Machine

variable {m : Config.MinAvail} {s t : State} {is : List Instr}

/-! ### Hazards of the scan -/

/-- A buffer that begins with an incomplete candidate is NEED_MORE at offset 0 (R124). -/
theorem scan_incomplete {h k t l : Byte} {body : List Byte} (enough : m.toNat ≤ 4 + body.length)
    (header : h = 0xF0 ∨ h = 0xF1) (incomplete : body.length < l.toNat + 1) :
    scan m (h :: k :: t :: l :: body) = .needMore := by
  have decides : examine m (h :: k :: t :: l :: body) = some .needMore := by
    rw [examine_header enough ((isHeader_iff h).mpr header), if_pos incomplete]
  exact scan_of_examine (x := []) nofun decides

/-- Settles O46: the stray byte's candidate takes the frame's first three bytes as its command, type_id and length, so
the frame's type_id is the length it waits for. -/
theorem strayHeaderStallsTheScan : Obligations.StrayHeaderStallsTheScan := by
  intro m stray f tail header short
  have enough := minAvail_le m
  have size : (f.payload ++ [checksum f.typeId f.payload] ++ tail).length = f.payload.length + 1 + tail.length := by
    rw [List.length_append, List.length_append, List.length_singleton]
  rw [Frame.toBytes, frameBytes_eq]
  simp only [List.cons_append]
  refine scan_incomplete ?_ header ?_ <;> rw [List.length_cons, size] <;> omega

/-- Settles O47: a length byte declares at most 255, so 260 bytes complete the stalled candidate, and the scan of the
longer buffer accepts it or goes past it. -/
theorem stallIsBoundedInBytes : Obligations.StallIsBoundedInBytes := by
  intro m b d stalled bytes
  obtain ⟨l, -, -, -, onceComplete⟩ := stalledCandidateIsTestedAgain m b d stalled
  have longest : l.toNat < 256 := l.isLt
  refine (onceComplete (by omega)).imp_left ?_
  rintro ⟨f, found⟩
  rw [found, ScanResult.status]

/-- Settles O49: neither the length byte nor the checksum depends on the two bytes, so what stands in the buffer is the
encoding of the changed frame. -/
theorem headerAndCommandAreUnprotected : Obligations.HeaderAndCommandAreUnprotected := by
  intro m f h k tail header short enough
  have bytes : h :: k :: (f.toBytes ++ tail).drop 2 = Frame.toBytes { f with header := h, command := k } ++ tail := rfl
  rw [bytes]
  rw [List.length_append, f.toBytes_length] at enough
  refine scan_frame_at_front ?_ ((Frame.scanned_iff _).mpr ⟨header, short⟩)
  rwa [List.length_append, Frame.toBytes_length]

/-! ### RESET -/

/-- RESET is served in every state (R170). -/
theorem exec_reset (s : State) : exec .reset s = .next { s with rxbuf := [], response := .none } :=
  exec_served ⟨rfl, nofun, nofun⟩

/-- Settles O28: it is RESET's rule. -/
theorem resetEmptiesTheBuffer : Obligations.ResetEmptiesTheBuffer :=
  fun s => ⟨rfl, exec_reset s⟩

/-- RX_SCAN of an empty buffer is EXHAUSTED (R121). -/
theorem exec_rxScan_empty (empty : s.rxbuf = []) :
    exec .rxScan s = .next { s with response := .scan .exhausted } := by
  have few : s.rxbuf.length < s.params.minAvail.toNat := by
    rw [empty]
    exact Nat.lt_of_lt_of_le (Nat.succ_pos 4) (minAvail_ge _)
  exact exec_rxScan_no_frame (scan_short few) nofun

/-- Settles O29: RXBUF is empty in both states, and the scan of an empty buffer is EXHAUSTED. -/
theorem firstScanAfterResetIsExhausted : Obligations.FirstScanAfterResetIsExhausted := by
  refine ⟨rfl, fun s t h => ?_, exec_rxScan_empty rfl⟩
  obtain rfl := Host.Outcome.next.inj ((exec_reset s).symm.trans h)
  exact ⟨rfl, rfl, exec_rxScan_empty rfl⟩

/-! ### The Session's start-up and close -/

/-- A run of served TX operations completes with each operation's own response and leaves RXBUF alone: none of them
changes what a later one does (R24, R50). -/
theorem observe_tx (h : ∀ i ∈ is, isTx i = true ∧ Served i s) :
    ∃ final, observe is s = .next (is.map (responseOf · s), final) ∧ final.rxbuf = s.rxbuf := by
  suffices ∀ u : State, ∃ final, observe is u = .next (is.map (responseOf · s), final) ∧ final.rxbuf = u.rxbuf from
    this s
  induction is with
  | nil => exact fun u => ⟨u, rfl, rfl⟩
  | cons i is ih =>
    intro u
    obtain ⟨⟨htx, served⟩, later⟩ := List.forall_mem_cons.mp h
    obtain ⟨final, run, rxbuf⟩ := ih later { u with response := responseOf i s }
    exact ⟨final, observe_cons_eq_next.mpr ⟨_, _, tx_exec htx served u, run, rfl⟩, rxbuf⟩

/-- The seven operations of R173, in order. -/
theorem startUp_close_eq (rate : Nat) : startUpSequence rate ++ closeSequence =
    [.encSession true, pseudoBaudSelect rate, .encGet 222, .encGet 223, .encGet 224, .encGet 255,
      .encSession false] := rfl

/-- Bit 3 of the code is 0 (R72). -/
@[simp] theorem isTx_encFrame (h k t : Byte) (p : List Byte) : isTx (.encFrame h k t p) = true := by
  simp [isTx, opCode]
@[simp] theorem isTx_encGet (t : Byte) : isTx (.encGet t) = true := by simp [isTx, opCode]
@[simp] theorem isTx_encSession (o : Bool) : isTx (.encSession o) = true := by simp [isTx, opCode]

/-- Every operation of the Session's start-up and close is of unit TX and served in every state. -/
theorem startUp_close_served (rate : Nat) (s : State) :
    ∀ i ∈ startUpSequence rate ++ closeSequence, isTx i = true ∧ Served i s := by
  have session (o : Bool) : isTx (.encSession o) = true ∧ Served (.encSession o) s :=
    ⟨isTx_encSession o, rfl, nofun, nofun⟩
  have baud : isTx (pseudoBaudSelect rate) = true ∧ Served (pseudoBaudSelect rate) s :=
    ⟨isTx_encFrame .., rfl, nofun, nofun⟩
  have get (t : Byte) : isTx (.encGet t) = true ∧ Served (.encGet t) s := ⟨isTx_encGet t, rfl, nofun, nofun⟩
  simp only [startUp_close_eq, List.forall_mem_cons]
  exact ⟨session true, baud, get 222, get 223, get 224, get 255, session false, nofun⟩

theorem responseOf_session (o : Bool) (s : State) : responseOf (.encSession o) s =
    .bytes [0xF1, 0xC1, 0x00, 0x01, if o then 0x01 else 0x00, 0x00 + 1 + if o then 0x01 else 0x00] :=
  congrArg Response.bytes (frameBytes_singleton ..)

theorem responseOf_encGet (t : Byte) (s : State) :
    responseOf (.encGet t) s = .bytes [0xF1, 0xA1, t, 0x01, 0x00, t + 1 + 0x00] :=
  congrArg Response.bytes (frameBytes_singleton ..)

/-- The baud frame carries the rate's place in the table counted from 1 (R74, R107). -/
theorem responseOf_baudSelect {rate : Nat} {v : Byte} (index : BitVec.ofNat 8 (baudIndex rate + 1) = v) (s : State) :
    responseOf (pseudoBaudSelect rate) s =
      .bytes [0xF1, 0xB0, Config.baudTypeId, 0x01, v, Config.baudTypeId + 1 + v] :=
  index ▸ congrArg Response.bytes (frameBytes_singleton ..)

/-- The table of R74, and a rate outside it, which is sent as the last entry. -/
theorem baud_table : ∀ entry ∈
    [(9600, (0x01 : Byte)), (19200, 0x02), (38400, 0x03), (57600, 0x04), (115200, 0x05), (250000, 0x05)],
    BitVec.ofNat 8 (baudIndex entry.1 + 1) = entry.2 := by
  decide

/-- Settles O60: the seven operations are of unit TX, so the run's results are their own frames. -/
theorem startUpFrames : Obligations.StartUpFrames := by
  intro s rate v entry
  obtain ⟨final, run, rxbuf⟩ := observe_tx (startUp_close_served rate s)
  refine ⟨final, run.trans ?_, rxbuf⟩
  simp only [startUp_close_eq, List.map_cons, List.map_nil, responseOf_session, responseOf_encGet,
    responseOf_baudSelect (baud_table _ entry)]
  rfl

end Sys2Proof.Machine
end
